-- ==== Sys2Proof/Word.lean ====
section
/-! DEFINITION. The word types of the core: program bytes and instruction words are bits (10_state R37, 30_encoding R70);
a data cell or stack entry is the signed integer its two's complement pattern stands for (10_state R29, log 1). -/

namespace Sys2Proof

/-- One byte of the program byte stream (20_memory R50). -/
abbrev Byte := BitVec 8

/-- One instruction word, 32 bits (30_encoding R70). -/
abbrev InstrWord := BitVec 32

/-- The value of a data-memory cell or a stack entry: "a fixed-length array of signed integers" (10_state R29).
The width DATA_W is a parameter (`Params.dataW`); that every held value fits it is an invariant (log 1). -/
abbrev Value := Int

end Sys2Proof
end

