-- ==== Sys2Proof/Config.lean ====
section
/-! DEFINITION. The implementation parameters of 00_scope R6 to R10 and the constants the spec fixes. The spec leaves
no value of a running program open, so there is no opaque constant here. -/

namespace Sys2Proof

/-- The parameters of one implementation (00_scope R7, R8, R9). They are fixed for a machine: no rule changes them. -/
structure Params where
  /-- DATA_W: bits of one data cell and of one stack entry (R7). -/
  dataW : Nat
  /-- STACK_DEPTH: the greatest number of entries the stack holds (R8). -/
  stackDepth : Nat
  /-- PC_W: bits of the program counter (R9). -/
  pcW : Nat
deriving DecidableEq, Repr

/-- The constraints of 00_scope R7 (DATA_W >= 14) and R8 (STACK_DEPTH >= 1). -/
abbrev Params.wf (p : Params) : Prop := 14 ≤ p.dataW ∧ 1 ≤ p.stackDepth

/-- The spec's default parameters: 32, 256 and 32 (00_scope R10; log 4). -/
def Params.default : Params := { dataW := 32, stackDepth := 256, pcW := 32 }

/-- ERR_INFO_W = max(DATA_W, 23) + 2 (10_state R32). -/
def Params.errInfoW (p : Params) : Nat := max p.dataW 23 + 2

/-- The trace snapshot bound: "first 10 elements" (00_scope R10). -/
def Config.snapshotBound : Nat := 10

/-- DESIGN CHOICE (log 3, unsafe): MEM_SIZE of `State.reset`. The spec makes MEM_SIZE an input of each run with no
default (00_scope R6); this is the number of cells a 23-bit operand can name. -/
def Config.resetMemSize : Nat := 2 ^ 23

end Sys2Proof
end

