-- ==== Sys2Proof/Machine/State.lean ====
section
/-! DEFINITION. The machine state (10_state R20), the run state, the error codes, the trace record, the names of what the
host interface refuses, and the state after reset (70_reset_and_hazards R190, R191). -/

namespace Sys2Proof.Machine

/-- The run state `state` (10_state R30). -/
inductive RunState where
  /-- READY: reset done, no cycle has run, the host may preload. -/
  | ready
  /-- RUNNING: cycles run, one at a time. -/
  | running
  /-- HALTED_SUCCESS: the byte stream is exhausted; terminal. -/
  | haltedSuccess
  /-- HALTED_ERROR: a fatal error ended the run; terminal. -/
  | haltedError
deriving DecidableEq, Repr

/-- The value of `err_code` (60_exceptions R160). The reserved codes 6 and 7 cannot be held (93 I10; log 17). -/
inductive ErrCode where
  /-- NONE, the reset value. -/
  | noError
  | invalidBytecode
  | outOfRange
  | stackUnderflow
  | malformedProgram
  /-- StackOverflowError, the kind the spec adds (R164). -/
  | stackOverflow
deriving DecidableEq, Repr

/-- A trace record (10_state R35). -/
structure TraceRec where
  /-- The 4 fetched bytes in address order. -/
  bytes : List Byte
  /-- `word[4:0]`. -/
  opcode : BitVec 5
  /-- The decoded operand, unsigned. -/
  operand : Nat
  /-- `S[0..min(sp,10)-1]`, bottom first, after the instruction. -/
  stackSnapshot : List Value
  /-- `M[0..min(MEM_SIZE,10)-1]`, after the instruction. -/
  memSnapshot : List Value
deriving DecidableEq, Repr

/-- One listed cell of the data memory: address and value. The unit is a whole DATA_W-bit cell, never a byte
(20_memory R53, R54), so this is not `Host.Cell` (log 2). -/
abbrev Cell := Nat × Value

/-- The data memory: the cells whose value is not 0, by rising address. An unlisted cell reads as 0, the value the
spec gives every cell at reset (10_state R29; log 2). -/
abbrev Memory := List Cell

/-- The whole state: R20's architectural state, and the inputs of the run and parameters that a step reads. -/
structure State where
  /-- DATA_W, STACK_DEPTH and PC_W (00_scope R7 to R9); no rule writes them. -/
  params : Params
  /-- MEM_SIZE, an input of the run (00_scope R6). -/
  memSize : Nat
  /-- The program byte stream `P`, an input of the run, read-only (10_state R37). -/
  program : List Byte
  /-- The program counter, a byte offset (10_state R21; a Nat: log 9). -/
  pc : Nat
  /-- The held entries `S[0..sp-1]`, bottom first (10_state R23, R24; log 11). -/
  stack : List Value
  /-- The data memory `M` (10_state R29). -/
  mem : Memory
  /-- The run state `state` (10_state R30). -/
  runState : RunState
  /-- `err_code` (10_state R32). -/
  errCode : ErrCode
  /-- `err_pc` (10_state R32). -/
  errPc : Nat
  /-- `err_word` (10_state R32). -/
  errWord : InstrWord
  /-- `err_info`, signed (10_state R32, R33). -/
  errInfo : Int
  /-- The trace buffer `T`, oldest record first (10_state R34). -/
  trace : List TraceRec
deriving DecidableEq, Repr

/-- There is no outcome `fault`: every fatal error of this core has a described entry (60_exceptions R165) and is a next
state in HALTED_ERROR. The type is empty (log 6). -/
inductive Fault where
deriving DecidableEq, Repr

/-- What is refused, with no effect. All but the first are raised by the host interface only (10_state R38, R39), never
by a step; a refusal there is what the spec says, so it is safe. -/
inductive Refusal where
  /-- Raised by an arm of `exec` for an instruction with no meaning yet; safe. No arm raises it. -/
  | notModelled (mnemonic : String)
  /-- Raised by `hostReset` for a negative memory size (00_scope R6, 93 I12); safe. -/
  | negativeMemSize
  /-- Raised by `hostReset` for a program of 2^PC_W bytes or more (00_scope R9; log 8); safe. -/
  | programTooLong
  /-- Raised by `hostPreloadMem`, `hostPreloadPush`, `hostStart` outside READY (10_state R38, R39); safe. -/
  | notReady
  /-- Raised by `hostPreloadMem`, `hostReadMem` for an address outside `[0, MEM_SIZE)` (R39; log 20); safe. -/
  | cellOutOfRange
  /-- Raised by `hostPreloadPush` on a full stack (10_state R38, R39); safe. -/
  | stackFull
  /-- Raised by `hostReadMem` before the run has halted (10_state R38; log 20); safe. -/
  | notHalted
deriving DecidableEq, Repr

/-- What one step, one meaning or one host operation answers. -/
abbrev Result := Host.Outcome State Fault Refusal

/-- `reset(P, MEM_SIZE)` of 70_reset_and_hazards R190 for an accepted size: a fresh machine state. -/
def State.resetWith (params : Params) (program : List Byte) (memSize : Nat) : State :=
  { params := params
    memSize := memSize
    program := program
    pc := 0
    stack := []
    mem := []
    runState := .ready
    errCode := .noError
    errPc := 0
    errWord := 0
    errInfo := 0
    trace := [] }

/-- The machine right after reset with the spec's default parameters, nothing loaded, and `Config.resetMemSize` cells
(the last two are a DESIGN CHOICE: log 3; every other field is R190's). -/
def State.reset : State := State.resetWith Params.default [] Config.resetMemSize

end Sys2Proof.Machine
end

