-- ==== Sys2Proof/Machine/Flags.lean ====
section
/-! DEFINITION. The core has no flags (10_state R36); NOT_EQUAL's truth value stands here. The numeric codes of the run
state and of the error kinds stand here too. -/

namespace Sys2Proof.Machine

/-- NOT_EQUAL's result, 1 when the cell differs from the popped value, else 0 (43_compare R150, R153). Values of one
width are equal exactly when their patterns are. -/
def notEqualResult (m value1 : Value) : Nat := if m ≠ value1 then 1 else 0

/-- The 2-bit code of the run state (10_state R30). -/
def RunState.code : RunState → BitVec 2
  | .ready => 0
  | .running => 1
  | .haltedSuccess => 2
  | .haltedError => 3

/-- The 3-bit error code (60_exceptions R160). -/
def ErrCode.code : ErrCode → BitVec 3
  | .noError => 0
  | .invalidBytecode => 1
  | .outOfRange => 2
  | .stackUnderflow => 3
  | .malformedProgram => 4
  | .stackOverflow => 5

/-- HALTED_SUCCESS or HALTED_ERROR (10_state R31). -/
def RunState.halted : RunState → Bool
  | .haltedSuccess => true
  | .haltedError => true
  | .ready => false
  | .running => false

end Sys2Proof.Machine
end

