-- ==== Sys2Proof/Syntax.lean ====
section
/-! DEFINITION. The four instructions (30_encoding R71), their opcodes and operand widths, and the names of the
decoder's and the encoder's failures. -/

namespace Sys2Proof

/-- The closed enumeration of the four operations (00_scope R2, 30_encoding R71). -/
inductive Opcode where
  | loadConst
  | readFromMemory
  | writeToMemory
  | notEqual
deriving DecidableEq, Repr

/-- An instruction with its single operand, an unsigned integer (30_encoding R73). That the operand fits its width is
`Instr.wf` (R71: "0 <= operand < 2^W"). -/
inductive Instr where
  /-- LOAD_CONST imm13 (41_stack_load R120). -/
  | loadConst (imm13 : Nat)
  /-- READ_FROM_MEMORY addr23 (42_memory_access R130). -/
  | readFromMemory (addr23 : Nat)
  /-- WRITE_TO_MEMORY addr23 (42_memory_access R135). -/
  | writeToMemory (addr23 : Nat)
  /-- NOT_EQUAL off11 (43_compare R150). -/
  | notEqual (off11 : Nat)
deriving DecidableEq, Repr

/-- The opcode of an instruction. -/
def Instr.opcode : Instr → Opcode
  | .loadConst _ => .loadConst
  | .readFromMemory _ => .readFromMemory
  | .writeToMemory _ => .writeToMemory
  | .notEqual _ => .notEqual

/-- The operand of an instruction. -/
def Instr.operand : Instr → Nat
  | .loadConst n => n
  | .readFromMemory n => n
  | .writeToMemory n => n
  | .notEqual n => n

/-- The instruction of an opcode and an operand. -/
def Opcode.instr : Opcode → Nat → Instr
  | .loadConst, n => .loadConst n
  | .readFromMemory, n => .readFromMemory n
  | .writeToMemory, n => .writeToMemory n
  | .notEqual, n => .notEqual n

/-- Why a byte sequence is no instruction (30_encoding R77, 40_sequencer R103). -/
inductive DecodeError where
  /-- The opcode field is none of 17, 18, 23, 26: INVALID(op) of 30_encoding R75. -/
  | invalidOpcode (op : BitVec 5)
  /-- Fewer than 4 bytes are left. -/
  | partialWord (bytesLeft : Nat)
deriving DecidableEq, Repr

/-- The bound a `RangeError` of the reference encoder names (30_encoding R80, R88). -/
inductive RangeBound where
  /-- The bound `0 <= operand`. -/
  | nonNegative
  /-- The bound `operand < limit`, with limit = 2^W. -/
  | below (limit : Nat)
deriving DecidableEq, Repr

end Sys2Proof
end

