-- ==== Sys2Proof/WellFormed.lean ====
section
/-! DEFINITION. Which instructions are well formed: the operand fits the width of its opcode (30_encoding R71). -/

namespace Sys2Proof

/-- "Invariant: 0 <= operand < 2^W for the opcode's W", with W = 13, 23, 23 and 11 (30_encoding R71). -/
def Instr.wf : Instr → Bool
  | .loadConst imm13 => decide (imm13 < 2 ^ 13)
  | .readFromMemory addr23 => decide (addr23 < 2 ^ 23)
  | .writeToMemory addr23 => decide (addr23 < 2 ^ 23)
  | .notEqual off11 => decide (off11 < 2 ^ 11)

end Sys2Proof
end

