-- ==== Sys2Proof/Decode.lean ====
section
/-! DEFINITION. The decoder, total on every word and every byte sequence (30_encoding R70 to R79), and the reference
encoder (R80, R81, R84), written from the same table. -/

namespace Sys2Proof

/-- The opcode value of 30_encoding R71. -/
def Opcode.code : Opcode → Nat
  | .loadConst => 26
  | .readFromMemory => 18
  | .writeToMemory => 23
  | .notEqual => 17

/-- The operand width W of an opcode: 13, 23, 23 or 11 (30_encoding R71, R74). -/
def Opcode.width : Opcode → Nat
  | .loadConst => 13
  | .readFromMemory => 23
  | .writeToMemory => 23
  | .notEqual => 11

/-- The 5-bit opcode field value of an opcode (30_encoding R70). -/
def Opcode.bits (o : Opcode) : BitVec 5 := BitVec.ofNat 5 o.code

/-- The opcode classifier: four defined values of 32, none otherwise (30_encoding R72, R74). -/
def Opcode.ofBits (op : BitVec 5) : Option Opcode :=
  if op = Opcode.bits .loadConst then some .loadConst
  else if op = Opcode.bits .readFromMemory then some .readFromMemory
  else if op = Opcode.bits .writeToMemory then some .writeToMemory
  else if op = Opcode.bits .notEqual then some .notEqual
  else none

/-- `word[4:0]` (30_encoding R70). -/
def opcodeField (word : InstrWord) : BitVec 5 := word.extractLsb' 0 5

/-- `word[4+W:5]`, zero-extended: `(word >> 5) & (2^W - 1)` (30_encoding R75). -/
def operandField (word : InstrWord) (w : Nat) : Nat := word.toNat / 2 ^ 5 % 2 ^ w

/-- `decode(word)` of 30_encoding R75. `.error op` is INVALID(op). The bits above the operand are ignored (R76). -/
def decodeWord (word : InstrWord) : Except (BitVec 5) Instr :=
  match Opcode.ofBits (opcodeField word) with
  | some o => .ok (o.instr (operandField word o.width))
  | none => .error (opcodeField word)

/-- Little-endian assembly of a word from its bytes in address order (20_memory R52). -/
def wordOfBytes (b0 b1 b2 b3 : Byte) : InstrWord := b3 ++ b2 ++ b1 ++ b0

/-- `to_byte_string(word)`: the four bytes in address order (30_encoding R84). -/
def wordBytes (word : InstrWord) : List Byte :=
  [word.extractLsb' 0 8, word.extractLsb' 8 8, word.extractLsb' 16 8, word.extractLsb' 24 8]

/-- The decoder on a byte sequence: the instruction of the first four bytes, and the rest (30_encoding R79). -/
def decodeBytes : List Byte → Except DecodeError (Instr × List Byte)
  | b0 :: b1 :: b2 :: b3 :: rest =>
    match decodeWord (wordOfBytes b0 b1 b2 b3) with
    | .ok i => .ok (i, rest)
    | .error op => .error (.invalidOpcode op)
  | bytes => .error (.partialWord bytes.length)

/-- The canonical word of an instruction: `op | (operand << 5)` (30_encoding R80, R81). -/
def encode (i : Instr) : InstrWord := BitVec.ofNat 32 (i.opcode.code ||| i.operand <<< 5)

/-- `encode(op, operand)` of 30_encoding R80 with its RangeError; the operand is any integer. The lower bound is the one
named first, as in R88. -/
def encodeChecked (op : Opcode) (operand : Int) : Except RangeBound InstrWord :=
  if operand < 0 then .error .nonNegative
  else if operand < 2 ^ op.width then .ok (encode (op.instr operand.toNat))
  else .error (.below (2 ^ op.width))

/-- A word is canonical when its opcode is valid and `word[31:5+W] = 0` (30_encoding R81). -/
def isCanonical (word : InstrWord) : Bool :=
  match Opcode.ofBits (opcodeField word) with
  | some o => decide (word.toNat < 2 ^ (5 + o.width))
  | none => false

/-- The word of the low `nbits` bits of `w`, laid out as stored: least significant byte first (20_memory R52). -/
def tableBytes (nbits w : Nat) : List Byte := wordBytes (BitVec.ofNat 32 (w % 2 ^ nbits))

/-- What the decoder reads from an instruction whose bits are `w`, numbered as spec/opcode_table.json numbers them. -/
def decodeTableWord (nbits w : Nat) : Option Instr :=
  match decodeBytes (tableBytes nbits w) with
  | .ok (i, _) => some i
  | .error _ => none

end Sys2Proof
end

