-- ==== Sys2Proof/Machine/Memory.lean ====
section
/-! DEFINITION. The data memory as a canonical list of cells: its form, reading one cell and writing one cell
(20_memory R54, R56). -/

namespace Sys2Proof.Machine

/-- What an unlisted cell reads as: "all zero-initialized at creation" (10_state R29). -/
def Memory.unlisted : Value := 0

/-- Every listed address is above `bound` (none: no bound), addresses rise strictly, and no entry equals what an
unlisted cell reads as. -/
def Memory.wfAbove : Option Nat → Memory → Bool
  | _, [] => true
  | bound, (a, v) :: rest =>
    (match bound with
      | none => true
      | some b => decide (b < a)) &&
    decide (v ≠ Memory.unlisted) && Memory.wfAbove (some a) rest

/-- The canonical form: equal memories are equal lists. -/
def Memory.wf (m : Memory) : Bool := Memory.wfAbove none m

/-- `MemRead(a, 1)` (20_memory R54). -/
def Memory.read : Memory → Nat → Value
  | [], _ => Memory.unlisted
  | (b, v) :: rest, a => if a = b then v else Memory.read rest a

/-- Put the entry `(a, v)` before a tail whose addresses are above `a`, or nothing when `v` is the unlisted value. -/
def Memory.place (a : Nat) (v : Value) (rest : Memory) : Memory :=
  if v = Memory.unlisted then rest else (a, v) :: rest

/-- `MemWrite(a, 1, v)`: sets one cell and changes nothing else (20_memory R56). -/
def Memory.write : Memory → Nat → Value → Memory
  | [], a, v => Memory.place a v []
  | (b, u) :: rest, a, v =>
    if a < b then Memory.place a v ((b, u) :: rest)
    else if a = b then Memory.place a v rest
    else (b, u) :: Memory.write rest a v

/-- The cells `M[0..n-1]` as a list, lowest address first. -/
def Memory.firstCells (m : Memory) (n : Nat) : List Value := (List.range n).map m.read

end Sys2Proof.Machine
end

