-- ==== Sys2Proof/Machine/Operands.lean ====
section
/-! DEFINITION. The operand forms: literal extension, the two addressing modes, and the width of held values. -/

namespace Sys2Proof.Machine

/-- `v` is the value of some two's complement pattern of `w` bits (00_scope R7, R12 `sint`). -/
abbrev fitsWidth (w : Nat) (v : Int) : Prop := -2 ^ (w - 1) ≤ v ∧ v < 2 ^ (w - 1)

/-- `sint` of `zext_w(n)`: the value of the w-bit entry that an unsigned number makes (00_scope R12). -/
def zextEntry (w n : Nat) : Value := (BitVec.ofNat w n).toInt

/-- The absolute mode of READ_FROM_MEMORY and WRITE_TO_MEMORY: `ea = addr23`, no extension and no scaling
(42_memory_access R130, R135). -/
def directAddress (addr23 : Nat) : Int := addr23

/-- The mode of NOT_EQUAL: `off11 + sint(value1)`, an exact integer sum (43_compare R150, R151). -/
def offsetAddress (off11 : Nat) (value1 : Value) : Int := off11 + value1

end Sys2Proof.Machine
end

