-- ==== Sys2Proof/Machine/Ops.lean ====
section
/-! DEFINITION. The named operations: reading the program, the stack engine, the bounds check, and raising a fatal
error. Each is a primitive of 00_scope R13. -/

namespace Sys2Proof.Machine

/-- `pc <- target` (10_state R21). -/
def State.setPc (s : State) (pc : Nat) : State := { s with pc := pc }

/-- Replace the held stack entries. -/
def State.setStack (s : State) (stack : List Value) : State := { s with stack := stack }

/-- Replace the data memory. -/
def State.setMem (s : State) (mem : Memory) : State := { s with mem := mem }

/-- Change the run state (10_state R30). -/
def State.setRunState (s : State) (r : RunState) : State := { s with runState := r }

/-- Append one record to `T` (10_state R34). -/
def State.appendTrace (s : State) (r : TraceRec) : State := { s with trace := s.trace ++ [r] }

/-- PROG_LEN (00_scope R9). -/
def State.progLen (s : State) : Nat := s.program.length

/-- The stack depth `sp` (10_state R24; log 11). -/
def State.sp (s : State) : Nat := s.stack.length

/-- `ProgRead(addr, n)` (20_memory R51). -/
def progRead (program : List Byte) (addr n : Nat) : List Byte := (program.drop addr).take n

/-- `Fetch32(addr)` (20_memory R52), and 0 where no whole word stands at `addr`, as `err_word` holds (10_state R32). -/
def fetch32 (program : List Byte) (addr : Nat) : InstrWord :=
  match progRead program addr 4 with
  | [b0, b1, b2, b3] => wordOfBytes b0 b1 b2 b3
  | _ => 0

/-- Taking a fatal error, `raise E(pc = fpc, word = w, info = i)`: the four error registers are written and the run ends
(60_exceptions R165). There is no return from it (R172). -/
def raise (e : ErrCode) (fpc : Nat) (word : InstrWord) (info : Int) (s : State) : State :=
  { s with errCode := e, errPc := fpc, errWord := word, errInfo := info, runState := .haltedError }

/-- The fetch offset of the cycle an instruction executes in: "while an instruction executes `pc` already holds its own
offset plus 4" (10_state R21, 40_sequencer R104; log 7). -/
def State.fpc (s : State) : Nat := s.pc - 4

/-- The word of the cycle an instruction executes in; the program is immutable (20_memory R66; log 7). -/
def State.cycleWord (s : State) : InstrWord := fetch32 s.program s.fpc

/-- A raise inside an `exec_` rule: it "carries `pc = fpc` and `word = word` of this cycle" (40_sequencer R101). -/
def raiseInCycle (e : ErrCode) (info : Int) (s : State) : Result := .next (raise e s.fpc s.cycleWord info s)

/-- `InRange(a)`, the STRICT bounds check on the exact integer (20_memory R55). -/
def inRange (a : Int) (s : State) : Bool := decide (0 ≤ a ∧ a < s.memSize)

/-- `Push(v)` as the last statement of a rule (10_state R27). -/
def push (v : Value) (s : State) : Result :=
  if s.sp = s.params.stackDepth then raiseInCycle .stackOverflow 0 s
  else .next (s.setStack (s.stack ++ [v]))

/-- `v <- Pop()`, then the rest of the rule (10_state R28). -/
def popThen (rest : Value → State → Result) (s : State) : Result :=
  match s.stack.getLast? with
  | none => raiseInCycle .stackUnderflow 0 s
  | some v => rest v (s.setStack s.stack.dropLast)

/-- `if not InRange(a): raise OutOfRangeError(info = a)`, then the rest of the rule with the cell address
(20_memory R54, R55). -/
def inRangeThen (a : Int) (rest : Nat → State → Result) (s : State) : Result :=
  if inRange a s then rest a.toNat s else raiseInCycle .outOfRange a s

/-- The trace record of a completed cycle (10_state R35, 40_sequencer R108). -/
def traceRecord (fpc : Nat) (word : InstrWord) (i : Instr) (s : State) : TraceRec :=
  { bytes := progRead s.program fpc 4
    opcode := opcodeField word
    operand := i.operand
    stackSnapshot := s.stack.take Config.snapshotBound
    memSnapshot := s.mem.firstCells (min s.memSize Config.snapshotBound) }

end Sys2Proof.Machine
end

