-- ==== Sys2Proof/Machine/Compare.lean ====
section
/-! DEFINITION. The compare instruction (43_compare). -/

namespace Sys2Proof.Machine

/-- `exec_NOT_EQUAL(off11)`: pop, address sum, range check, read, compare, push (43_compare R150). -/
def execNotEqual (off11 : Nat) (s : State) : Result :=
  popThen (fun v s =>
    inRangeThen (offsetAddress off11 v) (fun a s =>
      push (zextEntry s.params.dataW (notEqualResult (s.mem.read a) v)) s) s) s

end Sys2Proof.Machine
end

