-- ==== Sys2Proof/Machine/MemoryAccess.lean ====
section
/-! DEFINITION. The memory read and write instructions (42_memory_access). -/

namespace Sys2Proof.Machine

/-- `exec_READ_FROM_MEMORY(addr23)`: range check, read, push (42_memory_access R130). -/
def execReadFromMemory (addr23 : Nat) (s : State) : Result :=
  inRangeThen (directAddress addr23) (fun a s => push (s.mem.read a) s) s

/-- `exec_WRITE_TO_MEMORY(addr23)`: pop, range check, write (42_memory_access R135). -/
def execWriteToMemory (addr23 : Nat) (s : State) : Result :=
  popThen (fun v s => inRangeThen (directAddress addr23) (fun a s => .next (s.setMem (s.mem.write a v))) s) s

end Sys2Proof.Machine
end

