-- ==== Sys2Proof/Machine/StackLoad.lean ====
section
/-! DEFINITION. The stack load instruction (41_stack_load). -/

namespace Sys2Proof.Machine

/-- `exec_LOAD_CONST(imm13)` (41_stack_load R120). -/
def execLoadConst (imm13 : Nat) (s : State) : Result := push (zextEntry s.params.dataW imm13) s

end Sys2Proof.Machine
end

