-- ==== Sys2Proof/Machine/Dispatch.lean ====
section
/-! DEFINITION. The dispatch: a valid word runs exactly one of the four instruction rules (40_sequencer R106). -/

namespace Sys2Proof.Machine

/-- The `execute` step of a cycle, run after `pc` has been advanced (40_sequencer R101, R106). -/
def exec (i : Instr) (s : State) : Host.Outcome State Fault Refusal :=
  match i with
  | .loadConst imm13 => Sys2Proof.Machine.execLoadConst imm13 s
  | .readFromMemory addr23 => Sys2Proof.Machine.execReadFromMemory addr23 s
  | .writeToMemory addr23 => Sys2Proof.Machine.execWriteToMemory addr23 s
  | .notEqual off11 => Sys2Proof.Machine.execNotEqual off11 s

end Sys2Proof.Machine
end

