-- ==== Sys2Proof/Machine/Sequencer.lean ====
section
/-! DEFINITION. The fetch-decode-dispatch cycle (40_sequencer R100 to R109). -/

namespace Sys2Proof.Machine

/-- The end of a cycle: an instruction that did not raise appends its trace record; one that raised appends none
(40_sequencer R108, 60_exceptions R165). -/
def retire (fpc : Nat) (word : InstrWord) (i : Instr) : Result → Result
  | .next t =>
    if t.runState = .haltedError then .next t else .next (t.appendTrace (traceRecord fpc word i t))
  | .fault r => .fault r
  | .refused r => .refused r

/-- Decode and execute the word fetched at `fpc`; `pc` has been advanced (40_sequencer R104, R105, R106). -/
def decodeAndExecute (fpc : Nat) (word : InstrWord) (s : State) : Result :=
  match decodeWord word with
  | .error op => .next (raise .invalidBytecode fpc word op.toNat s)
  | .ok i => retire fpc word i (exec i s)

/-- `cycle()` (40_sequencer R101); it runs only in RUNNING. -/
def cycle (s : State) : Result :=
  if s.progLen ≤ s.pc then .next (s.setRunState .haltedSuccess)
  else if s.progLen - s.pc < 4 then
    .next (raise .malformedProgram s.pc 0 ((s.progLen - s.pc : Nat) : Int) s)
  else decodeAndExecute s.pc (fetch32 s.program s.pc) (s.setPc (s.pc + 4))

/-- Outside RUNNING "no cycle runs" (40_sequencer R100), and no rule changes any state (10_state R31; log 6). -/
def idle (s : State) : Result := .next s

/-- The program with the bytes `bs` standing at byte offset `at_`; a gap below is filled with zero bytes. -/
def placeBytes (program : List Byte) (at_ : Nat) (bs : List Byte) : List Byte :=
  program.take at_ ++ List.replicate (at_ - program.length) 0 ++ bs ++ program.drop (at_ + bs.length)

end Sys2Proof.Machine
end

