-- ==== Sys2Proof/Machine/Step.lean ====
section
/-! DEFINITION. One step of the core: one cycle while RUNNING (40_sequencer R100), and the placing of an instruction
where the next step fetches. -/

namespace Sys2Proof.Machine

/-- One step: a cycle in RUNNING; nothing happens in the other run states (40_sequencer R100, log 6). -/
def step (s : State) : Host.Outcome State Fault Refusal :=
  match s.runState with
  | .running => cycle s
  | .ready => idle s
  | .haltedSuccess => idle s
  | .haltedError => idle s

/-- The instruction whose bits are `w` stands in the program at `pc`, and the core is RUNNING, as after the host's
`reset` with that program and `start` (70 R193; log 5). -/
def State.withFetchWord (s : State) (nbits w : Nat) : State :=
  { s with program := placeBytes s.program s.pc (tableBytes nbits w), runState := .running }

end Sys2Proof.Machine
end

