-- ==== Sys2Proof/Machine/Assembler.lean ====
section
/-! DEFINITION. The reference assembler (30_encoding R85 to R92): a reference definition, not hardware (00_scope R5). Text
is a list of characters. -/

namespace Sys2Proof.Machine

/-- The defined mnemonic of an opcode, matched exactly and case-sensitively (30_encoding R87). -/
def mnemonicText : Opcode → List Char
  | .loadConst => "LOAD_CONST".toList
  | .readFromMemory => "READ_FROM_MEMORY".toList
  | .writeToMemory => "WRITE_TO_MEMORY".toList
  | .notEqual => "NOT_EQUAL".toList

/-- The opcode a mnemonic token names (30_encoding R87). -/
def opcodeOfText (t : List Char) : Option Opcode :=
  [Opcode.loadConst, .readFromMemory, .writeToMemory, .notEqual].find? fun o => mnemonicText o == t

/-- What a line fails with (30_encoding R86 to R88). -/
inductive AsmErrorKind where
  | syntaxError
  | rangeError (bound : RangeBound)
deriving DecidableEq, Repr

/-- An assembly error names its line, 1-based, blank lines counted (30_encoding R86). -/
structure AsmError where
  line : Nat
  kind : AsmErrorKind
deriving DecidableEq, Repr

/-- The assembler's trace record "(mnemonic, opcode, operand, instruction bytes)" (30_encoding R90). -/
structure AsmRec where
  mnemonic : List Char
  opcode : BitVec 5
  operand : Nat
  bytes : List Byte
deriving DecidableEq, Repr

/-- The result of a call: an error comes with the bytes and records of the earlier lines (30_encoding R91). -/
structure AsmResult where
  bytes : List Byte
  trace : List AsmRec
  error : Option AsmError
deriving DecidableEq, Repr

/-- Spaces and tabs separate fields (30_encoding R86). -/
def isBlankChar (c : Char) : Bool := c == ' ' || c == '\t'

/-- "A trailing carriage return before the line feed is whitespace" (30_encoding R86). -/
def dropTrailingCr (line : List Char) : List Char :=
  if line.getLast? = some '\r' then line.dropLast else line

/-- The tokens of a line; `cur` holds the characters of the token being read, in reverse (30_encoding R86). -/
def tokensFrom (cur : List Char) : List Char → List (List Char)
  | [] => if cur.isEmpty then [] else [cur.reverse]
  | c :: cs =>
    if isBlankChar c then
      if cur.isEmpty then tokensFrom [] cs else cur.reverse :: tokensFrom [] cs
    else tokensFrom (c :: cur) cs

/-- The whitespace-separated fields of a line (30_encoding R86). -/
def lineTokens (line : List Char) : List (List Char) := tokensFrom [] (dropTrailingCr line)

/-- `[0-9]`. -/
def isDigitChar (c : Char) : Bool := decide ('0'.toNat ≤ c.toNat) && decide (c.toNat ≤ '9'.toNat)

/-- `[0-9]+`. -/
def isDigits (t : List Char) : Bool := !t.isEmpty && t.all isDigitChar

/-- The base-10 value of digits; leading zeros are allowed (30_encoding R88). -/
def digitsValue (t : List Char) : Nat := t.foldl (fun n c => 10 * n + (c.toNat - '0'.toNat)) 0

/-- The operand token: `[0-9]+` is its value; `-[0-9]+` is below the lower bound; any other token is a SyntaxError
(30_encoding R88). -/
def operandOfText (t : List Char) : Except AsmErrorKind Nat :=
  if isDigits t then .ok (digitsValue t)
  else match t with
    | '-' :: ds => if isDigits ds then .error (.rangeError .nonNegative) else .error .syntaxError
    | _ => .error .syntaxError

/-- The record of an operand that the reference encoder takes (30_encoding R80, R90). -/
def encodeRecord (op : Opcode) (operand : Nat) : Except AsmErrorKind AsmRec :=
  match encodeChecked op operand with
  | .ok w => .ok { mnemonic := mnemonicText op, opcode := op.bits, operand := operand, bytes := wordBytes w }
  | .error b => .error (.rangeError b)

/-- The two fields of a line: mnemonic first, then operand form and range (30_encoding R87, R88, R89). -/
def assembleFields (mnemonic operand : List Char) : Except AsmErrorKind AsmRec :=
  match opcodeOfText mnemonic with
  | none => .error .syntaxError
  | some op =>
    match operandOfText operand with
    | .error e => .error e
    | .ok n => encodeRecord op n

/-- One line: a blank line gives no word; the token count is checked first (30_encoding R85, R86, R89). -/
def assembleLine (line : List Char) : Except AsmErrorKind (Option AsmRec) :=
  match lineTokens line with
  | [] => .ok none
  | [m, o] =>
    match assembleFields m o with
    | .ok r => .ok (some r)
    | .error e => .error e
  | _ => .error .syntaxError

/-- The lines from number `n` on. The first failing line ends the call; earlier bytes and records stay (30_encoding R91). -/
def assembleFrom (n : Nat) : List (List Char) → AsmResult
  | [] => { bytes := [], trace := [], error := none }
  | line :: rest =>
    match assembleLine line with
    | .error e => { bytes := [], trace := [], error := some { line := n, kind := e } }
    | .ok none => assembleFrom (n + 1) rest
    | .ok (some r) =>
      let tail := assembleFrom (n + 1) rest
      { bytes := r.bytes ++ tail.bytes, trace := r :: tail.trace, error := tail.error }

/-- The lines of a text, split at line feeds (30_encoding R85). -/
def splitLinesFrom (cur : List Char) : List Char → List (List Char)
  | [] => [cur.reverse]
  | c :: cs => if c == '\n' then cur.reverse :: splitLinesFrom [] cs else splitLinesFrom (c :: cur) cs

/-- `assemble(source_lines, memory_is_not_needed)`: the second argument of the source's call has no effect on the output
and is left out (30_encoding R92, 90 C7). -/
def assemble (lines : List (List Char)) : AsmResult := assembleFrom 1 lines

/-- The assembler on one text. -/
def assembleText (text : List Char) : AsmResult := assemble (splitLinesFrom [] text)

end Sys2Proof.Machine
end

