-- ==== Sys2Proof/Machine/HostOps.lean ====
section
/-! DEFINITION. The operations the host drives the core with (10_state R38, R39; 70_reset_and_hazards R190, R193). They
are not steps of the core: the host acts between cycles only (10_state R40; log 5). -/

namespace Sys2Proof.Machine

/-- `reset(P, MEM_SIZE)`: allowed in any state; a negative size is refused and changes nothing (70 R190). A program that
R9 excludes is refused too (log 8). The parameters are the machine's own and stay. -/
def hostReset (program : List Byte) (memSize : Int) (s : State) : Result :=
  if memSize < 0 then .refused .negativeMemSize
  else if program.length < 2 ^ s.params.pcW then .next (State.resetWith s.params program memSize.toNat)
  else .refused .programTooLong

/-- `preload_mem(a, v)`: in READY and in range, `M[a] <- v` for any DATA_W-bit pattern (10_state R38, R39). -/
def hostPreloadMem (s : State) (a : Int) (v : BitVec s.params.dataW) : Result :=
  if s.runState ≠ .ready then .refused .notReady
  else if inRange a s then .next (s.setMem (s.mem.write a.toNat v.toInt))
  else .refused .cellOutOfRange

/-- `preload_push(v)`: in READY and below STACK_DEPTH, `S[sp] <- v; sp <- sp + 1` (10_state R38, R39). -/
def hostPreloadPush (s : State) (v : BitVec s.params.dataW) : Result :=
  if s.runState ≠ .ready then .refused .notReady
  else if s.sp = s.params.stackDepth then .refused .stackFull
  else .next (s.setStack (s.stack ++ [v.toInt]))

/-- `start`: in READY, `state <- RUNNING` (10_state R30, R38). -/
def hostStart (s : State) : Result :=
  if s.runState = .ready then .next (s.setRunState .running) else .refused .notReady

/-- Read `M[a]`: in a halted state only, with no effect (10_state R38). An address outside the memory names no cell and
is refused (log 20). -/
def hostReadMem (s : State) (a : Int) : Except Refusal Value :=
  if s.runState.halted then
    if inRange a s then .ok (s.mem.read a.toNat) else .error .cellOutOfRange
  else .error .notHalted

/-- What the host may read in any state (10_state R38). -/
structure HostView where
  runState : BitVec 2
  errCode : BitVec 3
  errPc : Nat
  errWord : InstrWord
  errInfo : Int
  trace : List TraceRec
deriving DecidableEq, Repr

/-- Read `state`, `err_*` and `T`: any state, no effect (10_state R38). -/
def hostRead (s : State) : HostView :=
  { runState := s.runState.code, errCode := s.errCode.code, errPc := s.errPc, errWord := s.errWord,
    errInfo := s.errInfo, trace := s.trace }

/-- The result of a run (10_state R38): no memory is returned with an error. -/
inductive RunResult where
  /-- HALTED_SUCCESS: `final_memory = M[0..MEM_SIZE-1]` and `T`. -/
  | success (finalMemory : List Value) (trace : List TraceRec)
  /-- HALTED_ERROR: the error and the trace accumulated before the fault. -/
  | error (code : ErrCode) (pc : Nat) (word : InstrWord) (info : Int) (trace : List TraceRec)
deriving DecidableEq, Repr

/-- The result the host reads after a halt; none before (10_state R38, 70 R193). -/
def runResult (s : State) : Option RunResult :=
  match s.runState with
  | .haltedSuccess => some (.success (s.mem.firstCells s.memSize) s.trace)
  | .haltedError => some (.error s.errCode s.errPc s.errWord s.errInfo s.trace)
  | .ready => none
  | .running => none

end Sys2Proof.Machine
end

