-- ==== Sys2Proof/Machine/Driver.lean ====
section
/-! DEFINITION. The driver contract: reset, start, cycles until the halt, result (70_reset_and_hazards R193). -/

namespace Sys2Proof.Machine

/-- Go on with a next state; a refusal ends the call. -/
def Result.andThen (r : Result) (f : State → Result) : Result :=
  match r with
  | .next s => f s
  | .fault e => .fault e
  | .refused e => .refused e

/-- `k` cycles. -/
def runCycles (k : Nat) (s : State) : Result := Host.Core.run Sys2Proof.core k s

/-- The state at the start of a run with no preload: `reset(P, MEM_SIZE)`, then `start` (70 R193). -/
def State.started (params : Params) (program : List Byte) (memSize : Nat) : State :=
  (State.resetWith params program memSize).setRunState .running

/-- `interpret(byte_stream, memory_size)` on a machine in any state: reset, start, and the cycles that any run needs,
`floor(PROG_LEN/4) + 1` (70 R193, 40_sequencer R112). -/
def interpret (program : List Byte) (memSize : Int) (s : State) : Result :=
  Result.andThen (hostReset program memSize s) fun s1 =>
    Result.andThen (hostStart s1) fun s2 => runCycles (program.length / 4 + 1) s2

end Sys2Proof.Machine
end

