-- ==== Sys2Proof/Safety.lean ====
section
/-! DEFINITION. What a claim may ask of a state: the invariant of the core, the invariant of the trace, the value range
of a run with no preload, and the comparison of two machines that differ in one parameter or in the trace. -/

namespace Sys2Proof.Machine

/-- The structural invariant of the core: what the rules say every state satisfies. -/
structure State.Inv (s : State) : Prop where
  /-- DATA_W >= 14 and STACK_DEPTH >= 1 (00_scope R7, R8). -/
  params_wf : s.params.wf
  /-- PROG_LEN < 2^PC_W (00_scope R9). -/
  progLen_lt : s.progLen < 2 ^ s.params.pcW
  /-- "`pc` is always a multiple of 4" (10_state R22). -/
  pc_aligned : s.pc % 4 = 0
  /-- "and always satisfies `0 <= pc <= PROG_LEN`" (10_state R22). -/
  pc_le : s.pc ≤ s.progLen
  /-- `sp` is "a number in `0..STACK_DEPTH`" (10_state R24). -/
  sp_le : s.sp ≤ s.params.stackDepth
  /-- Every held entry is a DATA_W-bit value (10_state R23). -/
  stack_fits : ∀ v ∈ s.stack, fitsWidth s.params.dataW v
  /-- The memory keeps its canonical form (log 2). -/
  mem_wf : s.mem.wf = true
  /-- Cells are `M[0]` to `M[MEM_SIZE-1]` (10_state R29). -/
  mem_inRange : ∀ c ∈ s.mem, c.1 < s.memSize
  /-- Every cell is a DATA_W-bit value (10_state R29). -/
  mem_fits : ∀ c ∈ s.mem, fitsWidth s.params.dataW c.2
  /-- ERR_INFO_W is wide enough for every value `err_info` takes (10_state R33). -/
  errInfo_fits : fitsWidth s.params.errInfoW s.errInfo
  /-- `err_pc` is a byte offset of the program (10_state R32). -/
  errPc_le : s.errPc ≤ s.progLen
  /-- The error registers "are written only on entry to HALTED_ERROR" (10_state R32). -/
  err_clear : s.runState ≠ .haltedError →
    s.errCode = .noError ∧ s.errPc = 0 ∧ s.errWord = 0 ∧ s.errInfo = 0
  /-- HALTED_ERROR records one of the five kinds (60_exceptions R160, R165). -/
  err_set : s.runState = .haltedError → s.errCode ≠ .noError

/-- The trace accounts for the executed words: one record per executed word, in order, with its bytes (40_sequencer
R108, R113; 60_exceptions R179). -/
structure State.TraceInv (s : State) : Prop where
  /-- The records' bytes, joined, are the start of the program. -/
  bytes_eq : s.trace.flatMap (fun r => r.bytes) = s.program.take (4 * s.trace.length)
  /-- Every executed word was a whole word of the program. -/
  within : 4 * s.trace.length ≤ s.progLen
  /-- Unless the run has faulted, `pc` stands after the executed words. -/
  pc_eq : s.runState ≠ .haltedError → s.pc = 4 * s.trace.length
  /-- A successful halt is an exhausted program (40_sequencer R102). -/
  exhausted : s.runState = .haltedSuccess → s.progLen ≤ s.pc

/-- The range of 10_state R43: every entry and every cell holds a value in `[0, 8191]`. -/
structure State.SmallValues (s : State) : Prop where
  stack_small : ∀ v ∈ s.stack, 0 ≤ v ∧ v ≤ 8191
  mem_small : ∀ a, 0 ≤ s.mem.read a ∧ s.mem.read a ≤ 8191

/-- The same state on a machine of another DATA_W (00_scope R7). -/
def State.withDataW (s : State) (w : Nat) : State := { s with params := { s.params with dataW := w } }

/-- The same state with another trace buffer (10_state R34). -/
def State.withTrace (s : State) (t : List TraceRec) : State := { s with trace := t }

/-- The program of an assembled text runs on the core: the bytes of the assembler (00_scope R5, 30_encoding R90). -/
def assembledProgram (lines : List (List Char)) : List Byte := (assemble lines).bytes

end Sys2Proof.Machine
end

