-- ==== Sys2Proof/Certificates/Slice0/Obligations.lean ====
section
/-! DEFINITION. The statements for the provers. Each docstring names the rules of spec/ it formalises. An entry to
HALTED_ERROR is written with `raise` (60_exceptions R165); `CycleFaultsAsRecorded` states its registers in full. -/

open Sys2Proof Sys2Proof.Machine

-- ---------------------------------------------------------------- reset and the host interface

/-- `reset(P, MEM_SIZE)` from any state sets every piece of state as 70_reset_and_hazards R190 and R191 list it, and a
negative size is refused. R9 bounds the program. -/
def Obligations.ResetMakesFreshState : Prop :=
  ∀ (s : State) (P : List Byte),
    (∀ n : Nat, P.length < 2 ^ s.params.pcW →
      ∃ t, hostReset P n s = .next t ∧
        t.program = P ∧ t.progLen = P.length ∧ t.memSize = n ∧ t.params = s.params ∧
        t.pc = 0 ∧ t.sp = 0 ∧ (∀ i : Nat, t.stack[i]? = none) ∧ (∀ a, t.mem.read a = 0) ∧ t.trace = [] ∧
        t.errCode = .noError ∧ t.errPc = 0 ∧ t.errWord = 0 ∧ t.errInfo = 0 ∧ t.runState = .ready) ∧
    (∀ n : Int, n < 0 → hostReset P n s = .refused .negativeMemSize)

/-- The reset state of the model satisfies the invariants. The model's choice: its MEM_SIZE and empty program (log 3) and
the default parameters (log 4). -/
def Obligations.ResetStateMeetsInvariants : Prop :=
  State.reset.Inv ∧ State.reset.TraceInv ∧ State.reset.SmallValues

/-- An accepted reset on a machine with legal parameters, and the start after it, give states that satisfy the
invariants, with nothing outside `[0, 8191]`. -/
def Obligations.StartedRunMeetsInvariants : Prop :=
  ∀ (s t : State) (P : List Byte) (n : Int), s.params.wf → hostReset P n s = .next t →
    t.Inv ∧ t.TraceInv ∧ t.SmallValues ∧
      ∃ u, hostStart t = .next u ∧ u = State.started s.params P n.toNat ∧ u.Inv ∧ u.TraceInv ∧ u.SmallValues

/-- A reset leaves nothing of the state before it: two machines with the same parameters are the same after it
(60_exceptions R180: "no state survives into the next run"). -/
def Obligations.ResetForgetsEarlierRun : Prop :=
  ∀ (s s' : State) (P : List Byte) (n : Int), s.params = s'.params → hostReset P n s = hostReset P n s'

/-- Preloads: in READY and in range they set one cell or push one entry of any DATA_W-bit pattern; in any other state,
out of range, or beyond STACK_DEPTH they are refused (10_state R39). -/
def Obligations.PreloadOnlyInReady : Prop :=
  ∀ (s : State) (a : Int) (v : BitVec s.params.dataW), s.mem.wf = true →
    (s.runState ≠ .ready →
      hostPreloadMem s a v = .refused .notReady ∧ hostPreloadPush s v = .refused .notReady) ∧
    (s.runState = .ready → ¬ (0 ≤ a ∧ a < s.memSize) → hostPreloadMem s a v = .refused .cellOutOfRange) ∧
    (s.runState = .ready → 0 ≤ a → a < s.memSize →
      ∃ m, hostPreloadMem s a v = .next { s with mem := m } ∧ m.wf = true ∧
        ∀ x : Nat, m.read x = if (x : Int) = a then v.toInt else s.mem.read x) ∧
    (s.runState = .ready → s.stack.length = s.params.stackDepth → hostPreloadPush s v = .refused .stackFull) ∧
    (s.runState = .ready → s.stack.length < s.params.stackDepth →
      hostPreloadPush s v = .next { s with stack := s.stack ++ [v.toInt] })

/-- Preloads and start keep the invariants a run begins with. -/
def Obligations.HostOperationsKeepInvariant : Prop :=
  ∀ (s t : State) (a : Int) (v : BitVec s.params.dataW), s.Inv → s.TraceInv →
    (hostPreloadMem s a v = .next t ∨ hostPreloadPush s v = .next t ∨ hostStart s = .next t) →
    t.Inv ∧ t.TraceInv

/-- The host's reads: a cell in a halted state, and the result of the run (10_state R38). The model's choice (log 20): a
cell read before the halt is refused, and one after the halt at an address that names no cell is refused. -/
def Obligations.HostReadsResultAfterHalt : Prop :=
  ∀ (s : State) (a : Nat),
    (s.runState = .haltedSuccess →
      ∃ cells, runResult s = some (.success cells s.trace) ∧ cells.length = s.memSize ∧
        ∀ x, x < s.memSize → cells[x]? = some (s.mem.read x)) ∧
    (s.runState = .haltedError →
      runResult s = some (.error s.errCode s.errPc s.errWord s.errInfo s.trace)) ∧
    (s.runState = .haltedSuccess ∨ s.runState = .haltedError → a < s.memSize →
      hostReadMem s a = .ok (s.mem.read a)) ∧
    (s.runState = .haltedSuccess ∨ s.runState = .haltedError → s.memSize ≤ a →
      hostReadMem s a = .error .cellOutOfRange) ∧
    (s.runState = .haltedSuccess ∨ s.runState = .haltedError → ∀ b : Int, b < 0 →
      hostReadMem s b = .error .cellOutOfRange) ∧
    (s.runState = .ready ∨ s.runState = .running →
      runResult s = none ∧ hostReadMem s a = .error .notHalted)

/-- `interpret(byte_stream, memory_size)`: reset, start and the cycles of the run end in a halted state with a result,
from any state of a machine (70_reset_and_hazards R193). -/
def Obligations.InterpretAlwaysHasResult : Prop :=
  ∀ (s : State) (P : List Byte) (n : Nat), P.length < 2 ^ s.params.pcW →
    ∃ t r, interpret P n s = .next t ∧ t.runState.halted = true ∧ runResult t = some r ∧
      runCycles (P.length / 4 + 1) (State.started s.params P n) = .next t

-- ---------------------------------------------------------------- the cycle

/-- In READY and in the halted states no cycle runs, and a RUNNING step is one cycle: it fetches at `pc`, unless the
program is exhausted (40_sequencer R100). -/
def Obligations.CyclesRunOnlyWhileRunning : Prop :=
  ∀ s : State,
    (s.runState ≠ .running → step s = .next s) ∧
    (s.runState = .running → ∃ t, step s = .next t ∧ (t.pc = s.pc + 4 ∨ t.runState.halted = true))

/-- A halted state is terminal: any number of cycles leaves it, preloads and start are refused, and a reset leads to
READY (10_state R31). -/
def Obligations.HaltedIsTerminal : Prop :=
  ∀ (s : State), s.runState.halted = true →
    (∀ k, runCycles k s = .next s) ∧ hostStart s = .refused .notReady ∧
    (∀ (a : Int) (v : BitVec s.params.dataW),
      hostPreloadMem s a v = .refused .notReady ∧ hostPreloadPush s v = .refused .notReady) ∧
    (∀ (P : List Byte) (n : Nat), P.length < 2 ^ s.params.pcW →
      ∃ t, hostReset P n s = .next t ∧ t.runState = .ready)

/-- The codes and the transitions of the run state: READY to RUNNING on start only, RUNNING to HALTED_SUCCESS when the
cycle finds `pc >= PROG_LEN`, RUNNING to HALTED_ERROR with an error recorded, no other (10_state R30). -/
def Obligations.RunStateTransitions : Prop :=
  (RunState.code .ready = 0 ∧ RunState.code .running = 1 ∧ RunState.code .haltedSuccess = 2 ∧
    RunState.code .haltedError = 3) ∧
  (∀ s : State, s.runState = .ready → hostStart s = .next { s with runState := .running }) ∧
  (∀ s t : State, s.runState ≠ .ready → hostStart s ≠ .next t) ∧
  (∀ s t : State, step s = .next t →
    (s.runState ≠ .running → t.runState = s.runState) ∧
    (s.runState = .running →
      t.runState ≠ .ready ∧ (t.runState = .haltedSuccess ↔ s.progLen ≤ s.pc) ∧
      (s.errCode = .noError → (t.runState = .haltedError ↔ t.errCode ≠ .noError))))

/-- When the bytes at `pc` decode to an instruction, a step is `exec` of it after `pc` has been advanced by 4, and, unless
it raised, one trace record appended: the four fetched bytes, the opcode, the operand, and the first 10 entries and
cells after the instruction (40_sequencer R104, R106, R108; 10_state R35). -/
def Obligations.StepRunsDecodedInstruction : Prop :=
  ∀ (s : State) (i : Instr) (rest : List Byte), s.runState = .running →
    decodeBytes (s.program.drop s.pc) = .ok (i, rest) →
    i.wf = true ∧
    ∃ t, exec i { s with pc := s.pc + 4 } = .next t ∧ t.trace = s.trace ∧
      step s = .next (if t.runState = .haltedError then t else
        { t with trace := t.trace ++
          [{ bytes := (s.program.drop s.pc).take 4
             opcode := BitVec.ofNat 5 i.opcode.code
             operand := i.operand
             stackSnapshot := t.stack.take 10
             memSnapshot := (List.range (min t.memSize 10)).map t.mem.read }] })

/-- Exhaustion: the cycle changes the run state only; with `pc <= PROG_LEN` it happens exactly at `pc = PROG_LEN`; an empty
program halts with success on its first cycle with an empty trace (40_sequencer R102). -/
def Obligations.ExhaustionHaltsWithSuccess : Prop :=
  (∀ s : State, s.runState = .running → s.progLen ≤ s.pc →
    step s = .next { s with runState := .haltedSuccess }) ∧
  (∀ s t : State, s.runState = .running → s.pc ≤ s.progLen → step s = .next t →
    (t.runState = .haltedSuccess ↔ s.pc = s.progLen)) ∧
  (∀ (p : Params) (n : Nat), ∃ t, step (State.started p [] n) = .next t ∧ t.runState = .haltedSuccess ∧
    t.trace = [])

/-- A partial word raises MalformedProgramError with the count of bytes left, `pc` not advanced; loading such a program is
no error (40_sequencer R103). -/
def Obligations.PartialWordFaults : Prop :=
  (∀ s : State, s.runState = .running → 0 < s.progLen - s.pc → s.progLen - s.pc < 4 →
    step s = .next { s with
      errCode := .malformedProgram
      errPc := s.pc
      errWord := 0
      errInfo := ((s.progLen - s.pc : Nat) : Int)
      runState := .haltedError }) ∧
  (∀ (s : State) (P : List Byte) (n : Nat), P.length < 2 ^ s.params.pcW → P.length % 4 ≠ 0 →
    ∃ t, hostReset P n s = .next t ∧ t.errCode = .noError)

/-- A whole word whose opcode is none of the four raises InvalidBytecodeError, whatever its other bits, with `pc` advanced
(40_sequencer R105, 60_exceptions R161). -/
def Obligations.InvalidOpcodeFaults : Prop :=
  ∀ s : State, s.runState = .running → s.pc + 4 ≤ s.progLen →
    (fetch32 s.program s.pc).toNat % 32 ∉ ([17, 18, 23, 26] : List Nat) →
    step s = .next { s with
      pc := s.pc + 4
      errCode := .invalidBytecode
      errPc := s.pc
      errWord := fetch32 s.program s.pc
      errInfo := (((fetch32 s.program s.pc).toNat % 32 : Nat) : Int)
      runState := .haltedError }

/-- Words execute in address order: a step that stays in RUNNING moves `pc` by 4, and none moves it otherwise (40_sequencer
R110, 10_state R21). -/
def Obligations.RunningStepAdvancesOneWord : Prop :=
  ∀ s t : State, s.runState = .running → step s = .next t →
    (t.runState = .running → t.pc = s.pc + 4 ∧ t.trace.length = s.trace.length + 1) ∧
    (t.pc = s.pc ∨ t.pc = s.pc + 4) ∧
    (∀ (i : Instr) (u : State), exec i s = .next u → u.pc = s.pc)

-- ---------------------------------------------------------------- the instructions

/-- LOAD_CONST: its encoding, its push, and its overflow (41_stack_load R120). -/
def Obligations.LoadConstMeaning : Prop :=
  (∀ (s : State) (imm13 : Nat), 14 ≤ s.params.dataW → imm13 < 2 ^ 13 →
    s.stack.length < s.params.stackDepth →
    exec (.loadConst imm13) s = .next { s with stack := s.stack ++ [(imm13 : Int)] }) ∧
  (∀ (s : State) (imm13 : Nat), s.stack.length = s.params.stackDepth →
    exec (.loadConst imm13) s = .next (raise .stackOverflow s.fpc s.cycleWord 0 s)) ∧
  (∀ w : InstrWord, w.toNat % 32 = 26 → decodeWord w = .ok (.loadConst (w.toNat / 32 % 2 ^ 13)))

/-- READ_FROM_MEMORY: its encoding, its push of the cell, and its two errors in order (42_memory_access R130). -/
def Obligations.ReadFromMemoryMeaning : Prop :=
  (∀ (s : State) (addr23 : Nat), addr23 < s.memSize → s.stack.length < s.params.stackDepth →
    exec (.readFromMemory addr23) s = .next { s with stack := s.stack ++ [s.mem.read addr23] }) ∧
  (∀ (s : State) (addr23 : Nat), s.memSize ≤ addr23 →
    exec (.readFromMemory addr23) s = .next (raise .outOfRange s.fpc s.cycleWord addr23 s)) ∧
  (∀ (s : State) (addr23 : Nat), addr23 < s.memSize → s.stack.length = s.params.stackDepth →
    exec (.readFromMemory addr23) s = .next (raise .stackOverflow s.fpc s.cycleWord 0 s)) ∧
  (∀ w : InstrWord, w.toNat % 32 = 18 → decodeWord w = .ok (.readFromMemory (w.toNat / 32 % 2 ^ 23)))

/-- WRITE_TO_MEMORY: its encoding, its store of the popped value in one cell, and its two errors in order, the pop staying
done in the second (42_memory_access R135). -/
def Obligations.WriteToMemoryMeaning : Prop :=
  (∀ (s : State) (addr23 : Nat) (below : List Value) (v : Value), s.mem.wf = true → addr23 < s.memSize →
    s.stack = below ++ [v] →
    ∃ m, exec (.writeToMemory addr23) s = .next { s with stack := below, mem := m } ∧
      m.wf = true ∧ ∀ a, m.read a = if a = addr23 then v else s.mem.read a) ∧
  (∀ (s : State) (addr23 : Nat), s.stack = [] →
    exec (.writeToMemory addr23) s = .next (raise .stackUnderflow s.fpc s.cycleWord 0 s)) ∧
  (∀ (s : State) (addr23 : Nat) (below : List Value) (v : Value), s.memSize ≤ addr23 →
    s.stack = below ++ [v] →
    exec (.writeToMemory addr23) s =
      .next (raise .outOfRange s.fpc s.cycleWord addr23 { s with stack := below })) ∧
  (∀ w : InstrWord, w.toNat % 32 = 23 → decodeWord w = .ok (.writeToMemory (w.toNat / 32 % 2 ^ 23)))

/-- NOT_EQUAL: its encoding, its truth value from the cell at the exact sum, and its two errors in order, the pop staying
done in the second (43_compare R150). -/
def Obligations.NotEqualMeaning : Prop :=
  (∀ (s : State) (off11 : Nat) (below : List Value) (v : Value), 14 ≤ s.params.dataW →
    s.stack.length ≤ s.params.stackDepth → s.stack = below ++ [v] →
    0 ≤ (off11 : Int) + v → (off11 : Int) + v < s.memSize →
    exec (.notEqual off11) s = .next { s with
      stack := below ++ [if s.mem.read ((off11 : Int) + v).toNat = v then 0 else 1] }) ∧
  (∀ (s : State) (off11 : Nat), s.stack = [] →
    exec (.notEqual off11) s = .next (raise .stackUnderflow s.fpc s.cycleWord 0 s)) ∧
  (∀ (s : State) (off11 : Nat) (below : List Value) (v : Value), s.stack = below ++ [v] →
    ((off11 : Int) + v < 0 ∨ (s.memSize : Int) ≤ off11 + v) →
    exec (.notEqual off11) s =
      .next (raise .outOfRange s.fpc s.cycleWord (off11 + v) { s with stack := below })) ∧
  (∀ w : InstrWord, w.toNat % 32 = 17 → decodeWord w = .ok (.notEqual (w.toNat / 32 % 2 ^ 11)))

/-- NOT_EQUAL never overflows a stack within its depth; on success the depth stays and the top becomes 0 or 1, the entries
below staying (43_compare R152). -/
def Obligations.NotEqualKeepsDepth : Prop :=
  ∀ (s t : State) (off11 : Nat), s.runState = .running → 14 ≤ s.params.dataW →
    s.stack.length ≤ s.params.stackDepth → s.errCode ≠ .stackOverflow →
    exec (.notEqual off11) s = .next t →
    t.errCode ≠ .stackOverflow ∧
    (t.runState = .running → t.sp = s.sp ∧
      ∃ (below : List Value) (v r : Value), s.stack = below ++ [v] ∧ t.stack = below ++ [r] ∧ (r = 0 ∨ r = 1))

/-- The frame of the instructions that store nothing: LOAD_CONST, READ_FROM_MEMORY and NOT_EQUAL. Nothing but the stack
changes unless an error is raised, and then nothing but the stack, the error registers and the run state; every cell of
memory reads as before. -/
def Obligations.NonStoringInstructionsFrame : Prop :=
  ∀ (i : Instr) (s t : State) (n : Nat), (i = .loadConst n ∨ i = .readFromMemory n ∨ i = .notEqual n) →
    s.runState = .running → exec i s = .next t →
    t.params = s.params ∧ t.memSize = s.memSize ∧ t.program = s.program ∧ t.pc = s.pc ∧ t.trace = s.trace ∧
    t.mem = s.mem ∧ (∀ a, t.mem.read a = s.mem.read a) ∧
    (t.runState = .running →
      t.errCode = s.errCode ∧ t.errPc = s.errPc ∧ t.errWord = s.errWord ∧ t.errInfo = s.errInfo ∧
      ∃ r, t.stack = (match i with | .notEqual _ => s.stack.dropLast | _ => s.stack) ++ [r]) ∧
    (t.runState ≠ .running → t.runState = .haltedError ∧ (t.stack = s.stack ∨ t.stack = s.stack.dropLast))

/-- The frame of WRITE_TO_MEMORY: the cell stored to is the one at `directAddress`; every other cell reads as before; the
stack loses its top only (42_memory_access R135, R136). -/
def Obligations.WriteToMemoryFrame : Prop :=
  ∀ (s t : State) (addr23 a : Nat), s.runState = .running → s.mem.wf = true →
    exec (.writeToMemory addr23) s = .next t → (a : Int) = directAddress addr23 →
    t.params = s.params ∧ t.memSize = s.memSize ∧ t.program = s.program ∧ t.pc = s.pc ∧ t.trace = s.trace ∧
    t.stack = s.stack.dropLast ∧
    (∀ x, x ≠ a → t.mem.read x = s.mem.read x) ∧
    (t.runState = .running →
      t.errCode = s.errCode ∧ t.errPc = s.errPc ∧ t.errWord = s.errWord ∧ t.errInfo = s.errInfo ∧
      s.stack.getLast? = some (t.mem.read a)) ∧
    (t.runState ≠ .running → t.runState = .haltedError ∧ t.mem = s.mem)

/-- The stack engine: Push and Pop with their checks, and a Pop after a Push gives the pushed value and the stack before it
(10_state R27, R28). -/
def Obligations.PushAndPop : Prop :=
  ∀ (s : State) (v : Value) (rest : Value → State → Result),
    (s.sp = s.params.stackDepth → push v s = .next (raise .stackOverflow s.fpc s.cycleWord 0 s)) ∧
    (s.sp ≠ s.params.stackDepth →
      ∃ t, push v s = .next t ∧ t.stack[s.sp]? = some v ∧ t.sp = s.sp + 1 ∧
        (∀ i, i < s.sp → t.stack[i]? = s.stack[i]?) ∧ popThen rest t = rest v s) ∧
    (s.sp = 0 → popThen rest s = .next (raise .stackUnderflow s.fpc s.cycleWord 0 s)) ∧
    (∀ u, s.stack[s.sp - 1]? = some u →
      popThen rest s = rest u { s with stack := s.stack.take (s.sp - 1) })

/-- No instruction sees an entry below the top: with other entries there, of the same number, it does the same and leaves
them as they are (10_state R25). -/
def Obligations.LowerStackUnobserved : Prop :=
  ∀ (i : Instr) (s : State) (base base' : List Value) (v : Value), base.length = base'.length →
    ∃ (t : State) (top : List Value), exec i { s with stack := base ++ [v] } = .next { t with stack := base ++ top } ∧
      exec i { s with stack := base' ++ [v] } = .next { t with stack := base' ++ top }

-- ---------------------------------------------------------------- errors

/-- The error codes, and which instruction raises which kind (60_exceptions R160). -/
def Obligations.ErrorKindsByInstruction : Prop :=
  (ErrCode.code .noError = 0 ∧ ErrCode.code .invalidBytecode = 1 ∧ ErrCode.code .outOfRange = 2 ∧
    ErrCode.code .stackUnderflow = 3 ∧ ErrCode.code .malformedProgram = 4 ∧ ErrCode.code .stackOverflow = 5) ∧
  ∀ (i : Instr) (s t : State), s.runState = .running → s.stack.length ≤ s.params.stackDepth →
    exec i s = .next t → t.runState ≠ .running →
    t.runState = .haltedError ∧
    t.errCode ∈ (match i with
      | .loadConst _ => [ErrCode.stackOverflow]
      | .readFromMemory _ => [.outOfRange, .stackOverflow]
      | .writeToMemory _ => [.stackUnderflow, .outOfRange]
      | .notEqual _ => [.stackUnderflow, .outOfRange])

/-- What a faulting cycle records and leaves, kind by kind: `err_pc` is the fetch offset, `err_word` the fetched word, or 0
for a partial word, `err_info` the value of R167; `pc` is advanced but for a partial word; a pop stays done; nothing is
pushed; memory and the trace stay (60_exceptions R165, R166, R167). -/
def Obligations.CycleFaultsAsRecorded : Prop :=
  ∀ s t : State, s.runState = .running → s.stack.length ≤ s.params.stackDepth →
    step s = .next t → t.runState = .haltedError →
    t.errPc = s.pc ∧ t.trace = s.trace ∧ t.mem = s.mem ∧ t.program = s.program ∧ t.memSize = s.memSize ∧
    t.params = s.params ∧
    (match t.errCode with
      | .noError => False
      | .malformedProgram =>
        t.pc = s.pc ∧ t.errWord = 0 ∧ t.errInfo = ((s.progLen - s.pc : Nat) : Int) ∧
          1 ≤ t.errInfo ∧ t.errInfo ≤ 3 ∧ t.stack = s.stack
      | .invalidBytecode =>
        t.pc = s.pc + 4 ∧ t.errWord = fetch32 s.program s.pc ∧ t.errInfo = ((t.errWord.toNat % 32 : Nat) : Int) ∧
          t.errInfo ∉ ([17, 18, 23, 26] : List Int) ∧ t.stack = s.stack
      | .outOfRange =>
        t.pc = s.pc + 4 ∧ t.errWord = fetch32 s.program s.pc ∧ ¬ (0 ≤ t.errInfo ∧ t.errInfo < s.memSize) ∧
          ((∃ addr23 : Nat, decodeWord t.errWord = .ok (.readFromMemory addr23) ∧ t.errInfo = addr23 ∧
              t.stack = s.stack) ∨
            (∃ (addr23 : Nat) (v : Value), decodeWord t.errWord = .ok (.writeToMemory addr23) ∧
              t.errInfo = addr23 ∧ s.stack = t.stack ++ [v]) ∨
            (∃ (off11 : Nat) (v : Value), decodeWord t.errWord = .ok (.notEqual off11) ∧
              t.errInfo = off11 + v ∧ s.stack = t.stack ++ [v]))
      | .stackUnderflow =>
        t.pc = s.pc + 4 ∧ t.errWord = fetch32 s.program s.pc ∧ t.errInfo = 0 ∧ s.stack = [] ∧ t.stack = []
      | .stackOverflow =>
        t.pc = s.pc + 4 ∧ t.errWord = fetch32 s.program s.pc ∧ t.errInfo = 0 ∧ t.stack = s.stack ∧
          s.stack.length = s.params.stackDepth)

/-- The order of the checks of one cycle (60_exceptions R170). -/
def Obligations.CycleChecksInOrder : Prop :=
  ∀ s t : State, s.runState = .running → s.stack.length ≤ s.params.stackDepth → step s = .next t →
    (s.progLen ≤ s.pc → t.runState = .haltedSuccess) ∧
    (s.pc < s.progLen → s.progLen < s.pc + 4 →
      t.runState = .haltedError ∧ t.errCode = .malformedProgram) ∧
    (s.pc + 4 ≤ s.progLen →
      match decodeWord (fetch32 s.program s.pc) with
      | .error _ => t.runState = .haltedError ∧ t.errCode = .invalidBytecode
      | .ok (.loadConst _) =>
        if s.stack.length = s.params.stackDepth then t.runState = .haltedError ∧ t.errCode = .stackOverflow
        else t.runState = .running
      | .ok (.readFromMemory a) =>
        if s.memSize ≤ a then t.runState = .haltedError ∧ t.errCode = .outOfRange
        else if s.stack.length = s.params.stackDepth then
          t.runState = .haltedError ∧ t.errCode = .stackOverflow
        else t.runState = .running
      | .ok (.writeToMemory a) =>
        if s.stack.length = 0 then t.runState = .haltedError ∧ t.errCode = .stackUnderflow
        else if s.memSize ≤ a then t.runState = .haltedError ∧ t.errCode = .outOfRange
        else t.runState = .running
      | .ok (.notEqual off11) =>
        match s.stack.getLast? with
        | none => t.runState = .haltedError ∧ t.errCode = .stackUnderflow
        | some v =>
          if 0 ≤ (off11 : Int) + v ∧ (off11 : Int) + v < s.memSize then t.runState = .running
          else t.runState = .haltedError ∧ t.errCode = .outOfRange)

-- ---------------------------------------------------------------- encoding

/-- The worked encodings, both ways, and their bytes in address order (30_encoding R93). -/
def Obligations.WorkedEncodings : Prop :=
  ∀ row ∈ ([(.loadConst 100, 0x00000C9A, [0x9A, 0x0C, 0x00, 0x00]),
      (.loadConst 0, 0x0000001A, [0x1A, 0x00, 0x00, 0x00]),
      (.loadConst 8191, 0x0003FFFA, [0xFA, 0xFF, 0x03, 0x00]),
      (.readFromMemory 10, 0x00000152, [0x52, 0x01, 0x00, 0x00]),
      (.readFromMemory 8388607, 0x0FFFFFF2, [0xF2, 0xFF, 0xFF, 0x0F]),
      (.writeToMemory 20, 0x00000297, [0x97, 0x02, 0x00, 0x00]),
      (.writeToMemory 8388607, 0x0FFFFFF7, [0xF7, 0xFF, 0xFF, 0x0F]),
      (.notEqual 0, 0x00000011, [0x11, 0x00, 0x00, 0x00]),
      (.notEqual 2047, 0x0000FFF1, [0xF1, 0xFF, 0x00, 0x00])] : List (Instr × InstrWord × List Byte)),
    encode row.1 = row.2.1 ∧ decodeWord row.2.1 = .ok row.1 ∧ wordBytes row.2.1 = row.2.2

/-- The round trips: decoding the word of a well-formed instruction gives it back; encoding a decoded word gives the word
back exactly when it is canonical; the canonical words are the encoder's outputs (30_encoding R81, R82). -/
def Obligations.DecodeEncodeRoundTrip : Prop :=
  (∀ i : Instr, i.wf = true → decodeWord (encode i) = .ok i) ∧
  (∀ (w : InstrWord) (i : Instr), decodeWord w = .ok i → i.wf = true ∧ (encode i = w ↔ isCanonical w = true)) ∧
  (∀ w : InstrWord, isCanonical w = true ↔ ∃ i : Instr, i.wf = true ∧ encode i = w)

/-- The bytes of a well-formed instruction decode to it and leave the rest, and the table's numbering of its bits gives it
too (20_memory R52, 30_encoding R79, R84). -/
def Obligations.EncodedBytesDecode : Prop :=
  ∀ (i : Instr) (rest : List Byte), i.wf = true →
    decodeBytes (wordBytes (encode i) ++ rest) = .ok (i, rest) ∧
    fetch32 (wordBytes (encode i) ++ rest) 0 = encode i ∧
    decodeTableWord 32 (encode i).toNat = some i

/-- A word with non-zero bits above its operand decodes and executes as the canonical word: the two steps agree on every
field but the program, the recorded word and the trace, and their traces agree record by record on all but the bytes
(30_encoding R76). -/
def Obligations.HighBitsIgnored : Prop :=
  decodeWord 0xFFFFFFFA = .ok (.loadConst 8191) ∧
  (∀ (w : InstrWord) (i : Instr), decodeWord w = .ok i → decodeWord (encode i) = .ok i) ∧
  ∀ (s : State) (w : InstrWord) (i : Instr), decodeWord w = .ok i →
    ∃ t u, step (s.withFetchWord 32 w.toNat) = .next t ∧ step (s.withFetchWord 32 (encode i).toNat) = .next u ∧
      t = { u with program := t.program, errWord := t.errWord, trace := t.trace } ∧
      t.trace.map (fun r => { r with bytes := [] }) = u.trace.map (fun r => { r with bytes := [] })

/-- The illegal words are those whose opcode field is none of the four, 28 of the 32 values (30_encoding R72). -/
def Obligations.IllegalOpcodes : Prop :=
  (∀ (w : InstrWord) (op : BitVec 5), decodeWord w = .error op ↔
    op.toNat = w.toNat % 32 ∧ w.toNat % 32 ∉ ([17, 18, 23, 26] : List Nat)) ∧
  ((List.range 32).filter fun n => decide (n ∉ ([17, 18, 23, 26] : List Nat))).length = 28

/-- The counts of words (30_encoding R83). -/
def Obligations.WordCounts : Prop :=
  (∀ o : Opcode, { w : InstrWord | ∃ x, decodeWord w = .ok (o.instr x) }.ncard = 2 ^ 27) ∧
  { w : InstrWord | ∃ i, decodeWord w = .ok i }.ncard = 2 ^ 29 ∧
  { w : InstrWord | ∃ op, decodeWord w = .error op }.ncard = 28 * 2 ^ 27 ∧
  { w : InstrWord | isCanonical w = true }.ncard = 2 ^ 13 + 2 * 2 ^ 23 + 2 ^ 11

/-- The reference encoder: the word of a fitting operand, a RangeError with its bound otherwise (30_encoding R80). -/
def Obligations.ReferenceEncoderRange : Prop :=
  ∀ (op : Opcode) (n : Int),
    (0 ≤ n → n < 2 ^ op.width → ∃ w, encodeChecked op n = .ok w ∧ (w.toNat : Int) = op.code + n * 32) ∧
    (n < 0 → encodeChecked op n = .error .nonNegative) ∧
    (2 ^ op.width ≤ n → encodeChecked op n = .error (.below (2 ^ op.width)))

/-- A fetched word is little-endian: the byte at the lowest offset holds bits 7 to 0 (20_memory R52). -/
def Obligations.FetchLittleEndian : Prop :=
  ∀ (P : List Byte) (addr : Nat) (b0 b1 b2 b3 : Byte),
    P[addr]? = some b0 → P[addr + 1]? = some b1 → P[addr + 2]? = some b2 → P[addr + 3]? = some b3 →
    (fetch32 P addr).toNat = b0.toNat + 2 ^ 8 * b1.toNat + 2 ^ 16 * b2.toNat + 2 ^ 24 * b3.toNat

-- ---------------------------------------------------------------- invariants and whole-machine rules

/-- Every step keeps the invariant of the core, from every state that satisfies it. -/
def Obligations.StepKeepsInvariant : Prop :=
  ∀ s t : State, s.Inv → step s = .next t → t.Inv

/-- Every step keeps the trace's account of the executed words. -/
def Obligations.StepKeepsTraceInvariant : Prop :=
  ∀ s t : State, s.TraceInv → step s = .next t → t.TraceInv

/-- Every step keeps every entry and every cell in `[0, 8191]` (the induction of 10_state R43). -/
def Obligations.StepKeepsSmallValues : Prop :=
  ∀ s t : State, 14 ≤ s.params.dataW → s.mem.wf = true → s.SmallValues → step s = .next t → t.SmallValues

/-- `pc` is a multiple of 4 within the program at the start of a run, every step keeps it so, and it never reaches
`2^PC_W` (10_state R22). -/
def Obligations.PcStaysAlignedInProgram : Prop :=
  (∀ (p : Params) (P : List Byte) (n : Nat),
    (State.started p P n).pc % 4 = 0 ∧ (State.started p P n).pc ≤ P.length) ∧
  ∀ s t : State, s.pc % 4 = 0 → s.pc ≤ s.progLen → step s = .next t →
    t.pc % 4 = 0 ∧ t.pc ≤ t.progLen ∧ (s.progLen < 2 ^ s.params.pcW → t.pc < 2 ^ t.params.pcW)

/-- A run with no preload: every entry and cell stays in `[0, 8191]`, no NOT_EQUAL address is negative, and the choice of
DATA_W changes no result (10_state R43). -/
def Obligations.NoPreloadRunIgnoresDataW : Prop :=
  ∀ (p : Params) (P : List Byte) (n k : Nat), 14 ≤ p.dataW →
    ∃ t, runCycles k (State.started p P n) = .next t ∧
      t.SmallValues ∧ (∀ (off11 : Nat) (v : Value), v ∈ t.stack → 0 ≤ offsetAddress off11 v) ∧
      ∀ w, 14 ≤ w → runCycles k (State.started { p with dataW := w } P n) = .next (t.withDataW w)

/-- The program, the memory size and the parameters are never written: after any number of cycles every fetch sees the
bytes loaded at reset (10_state R37, 20_memory R66). -/
def Obligations.ProgramImmutable : Prop :=
  (∀ (s t : State) (k : Nat), runCycles k s = .next t →
    t.program = s.program ∧ t.memSize = s.memSize ∧ t.params = s.params) ∧
  (∀ (p : Params) (P : List Byte) (n k : Nat) (t : State), runCycles k (State.started p P n) = .next t →
    ∀ a, fetch32 t.program a = fetch32 P a)

/-- WRITE_TO_MEMORY is the only instruction that writes memory, it writes at most one cell, and a cycle that raises never
writes memory (42_memory_access R136). -/
def Obligations.OnlyWriteToMemoryWrites : Prop :=
  ∀ s t : State, s.mem.wf = true → step s = .next t →
    (s.runState = .running → t.runState = .haltedError → t.mem = s.mem) ∧
    (t.mem ≠ s.mem →
      ∃ addr23, decodeWord (fetch32 s.program s.pc) = .ok (.writeToMemory addr23) ∧
        ∀ a, a ≠ addr23 → t.mem.read a = s.mem.read a)

/-- A cell keeps its value through any number of cycles none of which fetches a WRITE_TO_MEMORY of it; a successful
WRITE_TO_MEMORY gives it the popped value; a READ_FROM_MEMORY pushes it (42_memory_access R137). -/
def Obligations.ReadReturnsLastWrite : Prop :=
  ∀ (s : State) (a : Nat), s.mem.wf = true → s.runState = .running →
    (∀ (k : Nat) (u : State), runCycles k s = .next u →
      (∀ j, j < k → decodeWord (fetch32 s.program (s.pc + 4 * j)) ≠ .ok (.writeToMemory a)) →
      u.mem.read a = s.mem.read a) ∧
    (∀ u : State, step s = .next u → u.runState = .running →
      decodeWord (fetch32 s.program s.pc) = .ok (.writeToMemory a) →
      u.mem.wf = true ∧ s.stack.getLast? = some (u.mem.read a)) ∧
    (∀ u : State, step s = .next u → u.runState = .running →
      decodeWord (fetch32 s.program s.pc) = .ok (.readFromMemory a) →
      u.stack.getLast? = some (s.mem.read a))

/-- No rule of execution depends on the trace: with another trace buffer a step does the same, appends the same, at most
one record; a run, with whatever preload, appends at most `floor(PROG_LEN / 4)` (10_state R34). -/
def Obligations.TraceNeverRead : Prop :=
  (∀ (s : State) (T : List TraceRec), ∃ (t : State) (new : List TraceRec), step s = .next { t with trace := s.trace ++ new } ∧
    step (s.withTrace T) = .next { t with trace := T ++ new } ∧ new.length ≤ 1) ∧
  (∀ (p : Params) (P : List Byte) (n k : Nat) (m : Memory) (st : List Value) (t : State),
    (State.started p P n).trace = [] ∧
    (runCycles k { State.started p P n with mem := m, stack := st } = .next t → t.trace.length ≤ P.length / 4))

/-- Every run, with whatever preload, halts within `floor(PROG_LEN/4) + 1` cycles; a run with no fault executes exactly that
many instruction cycles less one, and then one exhaustion cycle (40_sequencer R112). -/
def Obligations.EveryRunHalts : Prop :=
  (∀ s : State, s.runState = .running →
    ∃ t, runCycles ((s.progLen - s.pc) / 4 + 1) s = .next t ∧ t.runState.halted = true) ∧
  ∀ (p : Params) (P : List Byte) (n : Nat) (m : Memory) (st : List Value),
    ∃ t u, runCycles (P.length / 4) { State.started p P n with mem := m, stack := st } = .next t ∧
      runCycles (P.length / 4 + 1) { State.started p P n with mem := m, stack := st } = .next u ∧ u.runState.halted = true ∧
      (u.runState = .haltedSuccess →
        t.runState = .running ∧ t.trace.length = P.length / 4 ∧ u = { t with runState := .haltedSuccess })

/-- A successful run, with whatever preload, has executed every word once, in order: the trace's bytes are the program. A
program that is not a whole number of words never halts with success; it halts with an error (40_sequencer R113). -/
def Obligations.SuccessExecutesEveryWord : Prop :=
  ∀ (p : Params) (P : List Byte) (n : Nat) (m : Memory) (st : List Value),
    (∀ (k : Nat) (t : State), runCycles k { State.started p P n with mem := m, stack := st } = .next t →
      t.runState = .haltedSuccess →
      P.length % 4 = 0 ∧ t.trace.flatMap (fun r => r.bytes) = P ∧ t.trace.length = P.length / 4 ∧
        t.pc = P.length ∧ t.errCode = .noError) ∧
    (P.length % 4 ≠ 0 →
      ∃ t, runCycles (P.length / 4 + 1) { State.started p P n with mem := m, stack := st } = .next t ∧
        t.runState = .haltedError)

/-- With no stack preload, whatever the memory, and a stack as deep as the program is long in words, no push ever
overflows; LOAD_CONST raises nothing else (41_stack_load R121). -/
def Obligations.DeepStackNeverOverflows : Prop :=
  (∀ (p : Params) (P : List Byte) (n k : Nat) (m : Memory) (t : State), P.length / 4 ≤ p.stackDepth →
    runCycles k { State.started p P n with mem := m } = .next t → t.errCode ≠ .stackOverflow) ∧
  (∀ (s t : State) (imm13 : Nat), s.runState = .running → exec (.loadConst imm13) s = .next t →
    t.mem = s.mem ∧ (t.runState = .running ∨ t.runState = .haltedError ∧ t.errCode = .stackOverflow))

-- ---------------------------------------------------------------- the reference assembler

/-- One line of a mnemonic, a space and digits: the record of the canonical word where the value fits the width, else the
RangeError of the upper bound; a minus sign before the digits gives the RangeError of the lower bound; any other operand
token is a SyntaxError (30_encoding R88). -/
def Obligations.AssembleOneLine : Prop :=
  (∀ (op : Opcode) (tok : List Char), tok ≠ [] → (∀ c ∈ tok, isBlankChar c = false) →
    tok.getLast? ≠ some '\r' → isDigits tok = false → (∀ ds, tok = '-' :: ds → isDigits ds = false) →
    assembleLine (mnemonicText op ++ ' ' :: tok) = .error .syntaxError) ∧
  ∀ (op : Opcode) (ds : List Char), isDigits ds = true →
    (digitsValue ds < 2 ^ op.width →
      assembleLine (mnemonicText op ++ ' ' :: ds) = .ok (some
        { mnemonic := mnemonicText op
          opcode := op.bits
          operand := digitsValue ds
          bytes := wordBytes (encode (op.instr (digitsValue ds))) })) ∧
    (2 ^ op.width ≤ digitsValue ds →
      assembleLine (mnemonicText op ++ ' ' :: ds) = .error (.rangeError (.below (2 ^ op.width)))) ∧
    assembleLine (mnemonicText op ++ ' ' :: '-' :: ds) = .error (.rangeError .nonNegative)

/-- Assembly fails fast: the first failing line fails the call and no later line is read, and the bytes and records of the
lines before it are returned with the error, which names its line (30_encoding R91). -/
def Obligations.AssemblyFailsFast : Prop :=
  ∀ (before after : List (List Char)) (bad : List Char) (e : AsmErrorKind),
    (assemble before).error = none → assembleLine bad = .error e →
    assemble (before ++ bad :: after) =
      { bytes := (assemble before).bytes
        trace := (assemble before).trace
        error := some { line := before.length + 1, kind := e } }

/-- Every word of an assembled program is canonical, and its records' bytes are its bytes in order (30_encoding R81, R90). -/
def Obligations.AssemblerEmitsCanonicalWords : Prop :=
  ∀ lines : List (List Char), ∃ is : List Instr, (∀ i ∈ is, i.wf = true) ∧
    assembledProgram lines = is.flatMap (fun i => wordBytes (encode i)) ∧
    (assemble lines).trace.flatMap (fun r => r.bytes) = assembledProgram lines ∧
    (assemble lines).trace.map (fun r => r.operand) = is.map (fun i => i.operand)

/-- A run of an assembled program, with whatever preload, never meets an invalid opcode or a partial word. -/
def Obligations.AssembledProgramNeverMalformed : Prop :=
  ∀ (lines : List (List Char)) (p : Params) (n k : Nat) (m : Memory) (st : List Value) (t : State),
    runCycles k { State.started p (assembledProgram lines) n with mem := m, stack := st } = .next t →
    t.errCode ≠ .invalidBytecode ∧ t.errCode ≠ .malformedProgram
end

