-- ==== Sys2Proof/Laws/Decode.lean ====
section
/-! SUPPORT. The decoder and the encoder as arithmetic on the word's number. -/

namespace Sys2Proof

/-- The opcode field is the word modulo 32. -/
theorem opcodeField_toNat (w : InstrWord) : (opcodeField w).toNat = w.toNat % 32 := by
  simp [opcodeField]

@[simp] theorem Opcode.ofBits_bits (o : Opcode) : Opcode.ofBits o.bits = some o := by
  cases o <;> decide

/-- The classifier answers an opcode on that opcode's own field value only. -/
theorem Opcode.ofBits_eq_some {b : BitVec 5} {o : Opcode} : Opcode.ofBits b = some o ↔ b = o.bits := by
  constructor
  · intro h
    unfold Opcode.ofBits at h
    repeat' split at h
    all_goals simp_all
  · rintro rfl
    simp

/-- The classifier answers nothing on the other 28 field values. -/
theorem Opcode.ofBits_eq_none {b : BitVec 5} :
    Opcode.ofBits b = none ↔ b ≠ 17 ∧ b ≠ 18 ∧ b ≠ 23 ∧ b ≠ 26 := by
  revert b
  decide

/-- What the decoder answers on a word of a valid opcode. -/
theorem decodeWord_eq_ok {w : InstrWord} {i : Instr} :
    decodeWord w = .ok i ↔ ∃ o, opcodeField w = Opcode.bits o ∧ i = o.instr (operandField w o.width) := by
  unfold decodeWord
  cases h : Opcode.ofBits (opcodeField w) with
  | none =>
    simp only [reduceCtorEq, false_iff, not_exists, not_and]
    intro o ho
    simp [ho] at h
  | some o =>
    rw [Opcode.ofBits_eq_some] at h
    constructor
    · intro e
      exact ⟨o, h, (Except.ok.inj e).symm⟩
    · rintro ⟨o', h', rfl⟩
      have e : Opcode.ofBits (Opcode.bits o) = Opcode.ofBits (Opcode.bits o') := by rw [← h, ← h']
      simp only [Opcode.ofBits_bits, Option.some.injEq] at e
      rw [e]

@[simp] theorem Opcode.instr_operand (o : Opcode) (n : Nat) : (o.instr n).operand = n := by cases o <;> rfl

@[simp] theorem Opcode.instr_opcode (o : Opcode) (n : Nat) : (o.instr n).opcode = o := by cases o <;> rfl

@[simp] theorem Instr.opcode_instr (i : Instr) : i.opcode.instr i.operand = i := by cases i <;> rfl

/-- Well-formedness is the bound of the opcode's width. -/
theorem Instr.wf_iff (i : Instr) : i.wf = true ↔ i.operand < 2 ^ i.opcode.width := by
  cases i <;> exact decide_eq_true_iff

theorem operandField_lt (w : InstrWord) (n : Nat) : operandField w n < 2 ^ n :=
  Nat.mod_lt _ (Nat.pow_pos (by decide))

/-- Every decoded instruction is well formed. -/
theorem decodeWord_wf {w : InstrWord} {i : Instr} (h : decodeWord w = .ok i) : i.wf = true := by
  obtain ⟨o, -, rfl⟩ := decodeWord_eq_ok.1 h
  simpa [Instr.wf_iff] using operandField_lt w o.width

theorem Opcode.code_lt (o : Opcode) : o.code < 2 ^ 5 := by cases o <;> decide

theorem Opcode.width_le (o : Opcode) : o.width ≤ 23 := by cases o <;> decide

/-- The canonical word as a number: the `|` of 30_encoding R80 adds, since the opcode is below 32. -/
theorem encode_toNat {i : Instr} (h : i.wf = true) :
    (encode i).toNat = i.opcode.code + i.operand * 32 := by
  rw [Instr.wf_iff] at h
  have hw : 2 ^ i.opcode.width ≤ 2 ^ 23 := Nat.pow_le_pow_right (by decide) i.opcode.width_le
  have hc := i.opcode.code_lt
  have e : i.opcode.code ||| i.operand <<< 5 = i.opcode.code + i.operand * 32 := by
    rw [Nat.or_comm, ← Nat.shiftLeft_add_eq_or_of_lt hc, Nat.shiftLeft_eq]
    omega
  rw [encode, e, BitVec.toNat_ofNat, Nat.mod_eq_of_lt]
  omega

/-- The four bytes of a word make the word again (20_memory R52, 30_encoding R84). -/
@[simp] theorem wordOfBytes_wordBytes (w : InstrWord) :
    wordOfBytes (w.extractLsb' 0 8) (w.extractLsb' 8 8) (w.extractLsb' 16 8) (w.extractLsb' 24 8) = w := by
  unfold wordOfBytes
  refine BitVec.eq_of_getLsbD_eq fun i hi => ?_
  simp only [BitVec.getLsbD_append, BitVec.getLsbD_extractLsb']
  split
  · simp_all
  · split
    · rw [show 8 + (i - 8) = i by omega]
      simp [*]
    · split
      · rw [show 16 + (i - 8 - 8) = i by omega]
        simp [*]
      · rw [show 24 + (i - 8 - 8 - 8) = i by omega]
        simp only [show i - 8 - 8 - 8 < 8 by omega, decide_true, Bool.true_and]

@[simp] theorem length_wordBytes (w : InstrWord) : (wordBytes w).length = 4 := rfl

/-- A word assembled from bytes shows them again as its bytes. -/
theorem wordBytes_wordOfBytes (b0 b1 b2 b3 : Byte) : wordBytes (wordOfBytes b0 b1 b2 b3) = [b0, b1, b2, b3] := by
  simp only [wordBytes, List.cons.injEq, and_true]
  refine ⟨?_, ?_, ?_, ?_⟩ <;>
    (ext i hi
     simp only [wordOfBytes, BitVec.getElem_extractLsb', BitVec.getLsbD_append]
     repeat' split
     all_goals first
       | omega
       | (rw [← BitVec.getLsbD_eq_getElem]; congr 1; omega))

/-- The decoder on the bytes of a word is the decoder on the word. -/
theorem decodeBytes_wordBytes (w : InstrWord) (rest : List Byte) :
    decodeBytes (wordBytes w ++ rest) =
      match decodeWord w with
      | .ok i => .ok (i, rest)
      | .error op => .error (.invalidOpcode op) := by
  cases h : decodeWord w <;>
    simp only [wordBytes, List.cons_append, List.nil_append, decodeBytes, wordOfBytes_wordBytes, h]

end Sys2Proof
end

