-- ==== Sys2Proof/Laws/Memory.lean ====
section
/-! SUPPORT. The data memory: reads after writes, the canonical form, and what a write may add. -/

namespace Sys2Proof.Machine

@[simp] theorem Memory.read_nil (a : Nat) : Memory.read [] a = 0 := rfl

@[simp] theorem Memory.wf_nil : Memory.wf [] = true := rfl

/-- The canonical form above an address, spelt out. -/
theorem Memory.wfAbove_cons (b : Nat) (c : Cell) (rest : Memory) :
    Memory.wfAbove (some b) (c :: rest) = true ↔
      b < c.1 ∧ c.2 ≠ 0 ∧ Memory.wfAbove (some c.1) rest = true := by
  obtain ⟨a, v⟩ := c
  simp only [Memory.wfAbove, Bool.and_eq_true, decide_eq_true_eq, and_assoc]
  exact Iff.rfl

/-- The canonical form, spelt out. -/
theorem Memory.wf_cons (c : Cell) (rest : Memory) :
    Memory.wf (c :: rest) = true ↔ c.2 ≠ 0 ∧ Memory.wfAbove (some c.1) rest = true := by
  obtain ⟨a, v⟩ := c
  simp only [Memory.wf, Memory.wfAbove, Bool.and_eq_true, decide_eq_true_eq, true_and]
  exact Iff.rfl

/-- A weaker bound is enough. -/
theorem Memory.wfAbove_mono {b b' : Nat} (hb : b' ≤ b) {m : Memory}
    (h : Memory.wfAbove (some b) m = true) : Memory.wfAbove (some b') m = true := by
  cases m with
  | nil => rfl
  | cons c rest =>
    rw [Memory.wfAbove_cons] at h ⊢
    exact ⟨by omega, h.2⟩

/-- Nothing is listed at or below the bound. -/
theorem Memory.read_eq_zero_of_le {b a : Nat} {m : Memory} (h : Memory.wfAbove (some b) m = true)
    (ha : a ≤ b) : m.read a = 0 := by
  induction m generalizing b with
  | nil => rfl
  | cons c rest ih =>
    obtain ⟨x, v⟩ := c
    rw [Memory.wfAbove_cons] at h
    obtain ⟨hx, -, hrest⟩ := h
    simp only at hx hrest
    rw [Memory.read, if_neg (by omega)]
    exact ih hrest (by omega)

theorem Memory.place_wfAbove {b a : Nat} (v : Value) {rest : Memory} (hb : b < a)
    (h : Memory.wfAbove (some a) rest = true) : Memory.wfAbove (some b) (Memory.place a v rest) = true := by
  unfold Memory.place
  split
  · exact Memory.wfAbove_mono (by omega) h
  · rename_i hv
    exact (Memory.wfAbove_cons ..).2 ⟨hb, hv, h⟩

/-- Reading where an entry was placed before a tail that lists nothing there. -/
theorem Memory.read_place {a : Nat} (v : Value) {rest : Memory} (h : Memory.wfAbove (some a) rest = true)
    (x : Nat) : (Memory.place a v rest).read x = if x = a then v else rest.read x := by
  unfold Memory.place
  split
  · rename_i hv
    split
    · rename_i hx
      rw [hx, Memory.read_eq_zero_of_le h (Nat.le_refl _), hv]
      rfl
    · rfl
  · rfl

theorem Memory.write_wfAbove {b a : Nat} (v : Value) {m : Memory} (hb : b < a)
    (h : Memory.wfAbove (some b) m = true) : Memory.wfAbove (some b) (m.write a v) = true := by
  induction m generalizing b with
  | nil => exact Memory.place_wfAbove v hb rfl
  | cons c rest ih =>
    obtain ⟨x, u⟩ := c
    have h' := (Memory.wfAbove_cons ..).1 h
    simp only at h'
    obtain ⟨hx, hu, hrest⟩ := h'
    unfold Memory.write
    split
    · exact Memory.place_wfAbove v hb ((Memory.wfAbove_cons ..).2 ⟨by simpa, hu, hrest⟩)
    · split
      · subst_vars
        exact Memory.place_wfAbove v hb hrest
      · exact (Memory.wfAbove_cons ..).2 ⟨hx, hu, ih (by omega) hrest⟩

/-- A write keeps the canonical form. -/
theorem Memory.write_wf (a : Nat) (v : Value) {m : Memory} (h : m.wf = true) : (m.write a v).wf = true := by
  cases m with
  | nil =>
    unfold Memory.write Memory.place
    split
    · rfl
    · rename_i hv
      exact (Memory.wf_cons ..).2 ⟨hv, rfl⟩
  | cons c rest =>
    obtain ⟨x, u⟩ := c
    have h' := (Memory.wf_cons ..).1 h
    simp only at h'
    obtain ⟨hu, hrest⟩ := h'
    unfold Memory.write
    split
    · unfold Memory.place
      split
      · exact h
      · rename_i hax hv
        exact (Memory.wf_cons ..).2 ⟨hv, (Memory.wfAbove_cons ..).2 ⟨hax, hu, hrest⟩⟩
    · split
      · subst_vars
        unfold Memory.place
        split
        · cases rest with
          | nil => rfl
          | cons d rest' => exact (Memory.wf_cons ..).2 ((Memory.wfAbove_cons ..).1 hrest).2
        · rename_i hv
          exact (Memory.wf_cons ..).2 ⟨hv, hrest⟩
      · exact (Memory.wf_cons ..).2 ⟨hu, Memory.write_wfAbove v (by omega) hrest⟩

theorem Memory.read_write_above {b a : Nat} (v : Value) {m : Memory} (hb : b < a)
    (h : Memory.wfAbove (some b) m = true) (x : Nat) :
    (m.write a v).read x = if x = a then v else m.read x := by
  induction m generalizing b with
  | nil => exact Memory.read_place v rfl x
  | cons c rest ih =>
    obtain ⟨y, u⟩ := c
    have h' := (Memory.wfAbove_cons ..).1 h
    simp only at h'
    obtain ⟨hy, hu, hrest⟩ := h'
    unfold Memory.write
    split
    · exact Memory.read_place v ((Memory.wfAbove_cons ..).2 ⟨by simpa, hu, hrest⟩) x
    · split
      · subst_vars
        rw [Memory.read_place v hrest, Memory.read]
        split <;> simp_all
      · rw [Memory.read, ih (by omega) hrest, Memory.read]
        split
        · rw [if_neg (by omega)]
        · rfl

/-- A read sees the last write to its cell, and a write changes no other cell (20_memory R56, R63). -/
theorem Memory.read_write (a : Nat) (v : Value) {m : Memory} (h : m.wf = true) (x : Nat) :
    (m.write a v).read x = if x = a then v else m.read x := by
  cases m with
  | nil => exact Memory.read_place v rfl x
  | cons c rest =>
    obtain ⟨y, u⟩ := c
    have h' := (Memory.wf_cons ..).1 h
    simp only at h'
    obtain ⟨hu, hrest⟩ := h'
    unfold Memory.write
    split
    · exact Memory.read_place v ((Memory.wfAbove_cons ..).2 ⟨by simpa, hu, hrest⟩) x
    · split
      · subst_vars
        rw [Memory.read_place v hrest, Memory.read]
        split <;> simp_all
      · rw [Memory.read, Memory.read_write_above v (by omega) hrest, Memory.read]
        split
        · rw [if_neg (by omega)]
        · rfl

/-- Every entry of a written memory is the written one or an old one. -/
theorem Memory.mem_write {a : Nat} {v : Value} {m : Memory} {c : Cell} (h : c ∈ m.write a v) :
    c = (a, v) ∨ c ∈ m := by
  induction m with
  | nil =>
    unfold Memory.write Memory.place at h
    split at h <;> simp_all
  | cons d rest ih =>
    obtain ⟨y, u⟩ := d
    unfold Memory.write Memory.place at h
    split at h
    · split at h <;> simp_all
    · split at h
      · split at h <;> simp only [List.mem_cons] at h ⊢ <;> tauto
      · simp only [List.mem_cons] at h ⊢
        rcases h with h | h
        · exact .inr (.inl h)
        · rcases ih h with h | h
          · exact .inl h
          · exact .inr (.inr h)

/-- A property of 0 and of every listed value is one of every read. -/
theorem Memory.read_of_forall {P : Value → Prop} (h0 : P 0) {m : Memory} (h : ∀ c ∈ m, P c.2) (a : Nat) :
    P (m.read a) := by
  induction m with
  | nil => exact h0
  | cons c rest ih =>
    obtain ⟨b, v⟩ := c
    unfold Memory.read
    split
    · exact h (b, v) (by simp)
    · exact ih fun c hc => h c (by simp [hc])

@[simp] theorem Memory.length_firstCells (m : Memory) (n : Nat) : (m.firstCells n).length = n := by
  simp [Memory.firstCells]

@[simp] theorem Memory.getElem_firstCells (m : Memory) (n i : Nat) (h : i < (m.firstCells n).length) :
    (m.firstCells n)[i] = m.read i := by
  simp [Memory.firstCells]

end Sys2Proof.Machine
end

