-- ==== Sys2Proof/Laws/State.lean ====
section
/-! SUPPORT. One lemma per field per update of State, true by rfl. -/

namespace Sys2Proof.Machine

@[simp] theorem State.setPc_params (s : State) (x : Nat) : (s.setPc x).params = s.params := rfl
@[simp] theorem State.setPc_memSize (s : State) (x : Nat) : (s.setPc x).memSize = s.memSize := rfl
@[simp] theorem State.setPc_program (s : State) (x : Nat) : (s.setPc x).program = s.program := rfl
@[simp] theorem State.setPc_pc (s : State) (x : Nat) : (s.setPc x).pc = x := rfl
@[simp] theorem State.setPc_stack (s : State) (x : Nat) : (s.setPc x).stack = s.stack := rfl
@[simp] theorem State.setPc_mem (s : State) (x : Nat) : (s.setPc x).mem = s.mem := rfl
@[simp] theorem State.setPc_runState (s : State) (x : Nat) : (s.setPc x).runState = s.runState := rfl
@[simp] theorem State.setPc_errCode (s : State) (x : Nat) : (s.setPc x).errCode = s.errCode := rfl
@[simp] theorem State.setPc_errPc (s : State) (x : Nat) : (s.setPc x).errPc = s.errPc := rfl
@[simp] theorem State.setPc_errWord (s : State) (x : Nat) : (s.setPc x).errWord = s.errWord := rfl
@[simp] theorem State.setPc_errInfo (s : State) (x : Nat) : (s.setPc x).errInfo = s.errInfo := rfl
@[simp] theorem State.setPc_trace (s : State) (x : Nat) : (s.setPc x).trace = s.trace := rfl

@[simp] theorem State.setStack_params (s : State) (x : List Value) : (s.setStack x).params = s.params := rfl
@[simp] theorem State.setStack_memSize (s : State) (x : List Value) : (s.setStack x).memSize = s.memSize := rfl
@[simp] theorem State.setStack_program (s : State) (x : List Value) : (s.setStack x).program = s.program := rfl
@[simp] theorem State.setStack_pc (s : State) (x : List Value) : (s.setStack x).pc = s.pc := rfl
@[simp] theorem State.setStack_stack (s : State) (x : List Value) : (s.setStack x).stack = x := rfl
@[simp] theorem State.setStack_mem (s : State) (x : List Value) : (s.setStack x).mem = s.mem := rfl
@[simp] theorem State.setStack_runState (s : State) (x : List Value) : (s.setStack x).runState = s.runState := rfl
@[simp] theorem State.setStack_errCode (s : State) (x : List Value) : (s.setStack x).errCode = s.errCode := rfl
@[simp] theorem State.setStack_errPc (s : State) (x : List Value) : (s.setStack x).errPc = s.errPc := rfl
@[simp] theorem State.setStack_errWord (s : State) (x : List Value) : (s.setStack x).errWord = s.errWord := rfl
@[simp] theorem State.setStack_errInfo (s : State) (x : List Value) : (s.setStack x).errInfo = s.errInfo := rfl
@[simp] theorem State.setStack_trace (s : State) (x : List Value) : (s.setStack x).trace = s.trace := rfl

@[simp] theorem State.setMem_params (s : State) (x : Memory) : (s.setMem x).params = s.params := rfl
@[simp] theorem State.setMem_memSize (s : State) (x : Memory) : (s.setMem x).memSize = s.memSize := rfl
@[simp] theorem State.setMem_program (s : State) (x : Memory) : (s.setMem x).program = s.program := rfl
@[simp] theorem State.setMem_pc (s : State) (x : Memory) : (s.setMem x).pc = s.pc := rfl
@[simp] theorem State.setMem_stack (s : State) (x : Memory) : (s.setMem x).stack = s.stack := rfl
@[simp] theorem State.setMem_mem (s : State) (x : Memory) : (s.setMem x).mem = x := rfl
@[simp] theorem State.setMem_runState (s : State) (x : Memory) : (s.setMem x).runState = s.runState := rfl
@[simp] theorem State.setMem_errCode (s : State) (x : Memory) : (s.setMem x).errCode = s.errCode := rfl
@[simp] theorem State.setMem_errPc (s : State) (x : Memory) : (s.setMem x).errPc = s.errPc := rfl
@[simp] theorem State.setMem_errWord (s : State) (x : Memory) : (s.setMem x).errWord = s.errWord := rfl
@[simp] theorem State.setMem_errInfo (s : State) (x : Memory) : (s.setMem x).errInfo = s.errInfo := rfl
@[simp] theorem State.setMem_trace (s : State) (x : Memory) : (s.setMem x).trace = s.trace := rfl

@[simp] theorem State.setRunState_params (s : State) (x : RunState) : (s.setRunState x).params = s.params := rfl
@[simp] theorem State.setRunState_memSize (s : State) (x : RunState) : (s.setRunState x).memSize = s.memSize := rfl
@[simp] theorem State.setRunState_program (s : State) (x : RunState) : (s.setRunState x).program = s.program := rfl
@[simp] theorem State.setRunState_pc (s : State) (x : RunState) : (s.setRunState x).pc = s.pc := rfl
@[simp] theorem State.setRunState_stack (s : State) (x : RunState) : (s.setRunState x).stack = s.stack := rfl
@[simp] theorem State.setRunState_mem (s : State) (x : RunState) : (s.setRunState x).mem = s.mem := rfl
@[simp] theorem State.setRunState_runState (s : State) (x : RunState) : (s.setRunState x).runState = x := rfl
@[simp] theorem State.setRunState_errCode (s : State) (x : RunState) : (s.setRunState x).errCode = s.errCode := rfl
@[simp] theorem State.setRunState_errPc (s : State) (x : RunState) : (s.setRunState x).errPc = s.errPc := rfl
@[simp] theorem State.setRunState_errWord (s : State) (x : RunState) : (s.setRunState x).errWord = s.errWord := rfl
@[simp] theorem State.setRunState_errInfo (s : State) (x : RunState) : (s.setRunState x).errInfo = s.errInfo := rfl
@[simp] theorem State.setRunState_trace (s : State) (x : RunState) : (s.setRunState x).trace = s.trace := rfl

@[simp] theorem State.appendTrace_params (s : State) (x : TraceRec) : (s.appendTrace x).params = s.params := rfl
@[simp] theorem State.appendTrace_memSize (s : State) (x : TraceRec) : (s.appendTrace x).memSize = s.memSize := rfl
@[simp] theorem State.appendTrace_program (s : State) (x : TraceRec) : (s.appendTrace x).program = s.program := rfl
@[simp] theorem State.appendTrace_pc (s : State) (x : TraceRec) : (s.appendTrace x).pc = s.pc := rfl
@[simp] theorem State.appendTrace_stack (s : State) (x : TraceRec) : (s.appendTrace x).stack = s.stack := rfl
@[simp] theorem State.appendTrace_mem (s : State) (x : TraceRec) : (s.appendTrace x).mem = s.mem := rfl
@[simp] theorem State.appendTrace_runState (s : State) (x : TraceRec) : (s.appendTrace x).runState = s.runState := rfl
@[simp] theorem State.appendTrace_errCode (s : State) (x : TraceRec) : (s.appendTrace x).errCode = s.errCode := rfl
@[simp] theorem State.appendTrace_errPc (s : State) (x : TraceRec) : (s.appendTrace x).errPc = s.errPc := rfl
@[simp] theorem State.appendTrace_errWord (s : State) (x : TraceRec) : (s.appendTrace x).errWord = s.errWord := rfl
@[simp] theorem State.appendTrace_errInfo (s : State) (x : TraceRec) : (s.appendTrace x).errInfo = s.errInfo := rfl
@[simp] theorem State.appendTrace_trace (s : State) (x : TraceRec) : (s.appendTrace x).trace = s.trace ++ [x] := rfl

@[simp] theorem raise_params (e : ErrCode) (p : Nat) (w : InstrWord) (i : Int) (s : State) :
    (raise e p w i s).params = s.params := rfl
@[simp] theorem raise_memSize (e : ErrCode) (p : Nat) (w : InstrWord) (i : Int) (s : State) :
    (raise e p w i s).memSize = s.memSize := rfl
@[simp] theorem raise_program (e : ErrCode) (p : Nat) (w : InstrWord) (i : Int) (s : State) :
    (raise e p w i s).program = s.program := rfl
@[simp] theorem raise_pc (e : ErrCode) (p : Nat) (w : InstrWord) (i : Int) (s : State) :
    (raise e p w i s).pc = s.pc := rfl
@[simp] theorem raise_stack (e : ErrCode) (p : Nat) (w : InstrWord) (i : Int) (s : State) :
    (raise e p w i s).stack = s.stack := rfl
@[simp] theorem raise_mem (e : ErrCode) (p : Nat) (w : InstrWord) (i : Int) (s : State) :
    (raise e p w i s).mem = s.mem := rfl
@[simp] theorem raise_runState (e : ErrCode) (p : Nat) (w : InstrWord) (i : Int) (s : State) :
    (raise e p w i s).runState = .haltedError := rfl
@[simp] theorem raise_errCode (e : ErrCode) (p : Nat) (w : InstrWord) (i : Int) (s : State) :
    (raise e p w i s).errCode = e := rfl
@[simp] theorem raise_errPc (e : ErrCode) (p : Nat) (w : InstrWord) (i : Int) (s : State) :
    (raise e p w i s).errPc = p := rfl
@[simp] theorem raise_errWord (e : ErrCode) (p : Nat) (w : InstrWord) (i : Int) (s : State) :
    (raise e p w i s).errWord = w := rfl
@[simp] theorem raise_errInfo (e : ErrCode) (p : Nat) (w : InstrWord) (i : Int) (s : State) :
    (raise e p w i s).errInfo = i := rfl
@[simp] theorem raise_trace (e : ErrCode) (p : Nat) (w : InstrWord) (i : Int) (s : State) :
    (raise e p w i s).trace = s.trace := rfl

@[simp] theorem State.resetWith_params (p : Params) (program : List Byte) (n : Nat) :
    (State.resetWith p program n).params = p := rfl
@[simp] theorem State.resetWith_memSize (p : Params) (program : List Byte) (n : Nat) :
    (State.resetWith p program n).memSize = n := rfl
@[simp] theorem State.resetWith_program (p : Params) (program : List Byte) (n : Nat) :
    (State.resetWith p program n).program = program := rfl
@[simp] theorem State.resetWith_pc (p : Params) (program : List Byte) (n : Nat) :
    (State.resetWith p program n).pc = 0 := rfl
@[simp] theorem State.resetWith_stack (p : Params) (program : List Byte) (n : Nat) :
    (State.resetWith p program n).stack = [] := rfl
@[simp] theorem State.resetWith_mem (p : Params) (program : List Byte) (n : Nat) :
    (State.resetWith p program n).mem = [] := rfl
@[simp] theorem State.resetWith_runState (p : Params) (program : List Byte) (n : Nat) :
    (State.resetWith p program n).runState = .ready := rfl
@[simp] theorem State.resetWith_errCode (p : Params) (program : List Byte) (n : Nat) :
    (State.resetWith p program n).errCode = .noError := rfl
@[simp] theorem State.resetWith_errPc (p : Params) (program : List Byte) (n : Nat) :
    (State.resetWith p program n).errPc = 0 := rfl
@[simp] theorem State.resetWith_errWord (p : Params) (program : List Byte) (n : Nat) :
    (State.resetWith p program n).errWord = 0 := rfl
@[simp] theorem State.resetWith_errInfo (p : Params) (program : List Byte) (n : Nat) :
    (State.resetWith p program n).errInfo = 0 := rfl
@[simp] theorem State.resetWith_trace (p : Params) (program : List Byte) (n : Nat) :
    (State.resetWith p program n).trace = [] := rfl

@[simp] theorem State.started_params (p : Params) (program : List Byte) (n : Nat) :
    (State.started p program n).params = p := rfl
@[simp] theorem State.started_memSize (p : Params) (program : List Byte) (n : Nat) :
    (State.started p program n).memSize = n := rfl
@[simp] theorem State.started_program (p : Params) (program : List Byte) (n : Nat) :
    (State.started p program n).program = program := rfl
@[simp] theorem State.started_pc (p : Params) (program : List Byte) (n : Nat) :
    (State.started p program n).pc = 0 := rfl
@[simp] theorem State.started_stack (p : Params) (program : List Byte) (n : Nat) :
    (State.started p program n).stack = [] := rfl
@[simp] theorem State.started_mem (p : Params) (program : List Byte) (n : Nat) :
    (State.started p program n).mem = [] := rfl
@[simp] theorem State.started_runState (p : Params) (program : List Byte) (n : Nat) :
    (State.started p program n).runState = .running := rfl
@[simp] theorem State.started_errCode (p : Params) (program : List Byte) (n : Nat) :
    (State.started p program n).errCode = .noError := rfl
@[simp] theorem State.started_errPc (p : Params) (program : List Byte) (n : Nat) :
    (State.started p program n).errPc = 0 := rfl
@[simp] theorem State.started_errWord (p : Params) (program : List Byte) (n : Nat) :
    (State.started p program n).errWord = 0 := rfl
@[simp] theorem State.started_errInfo (p : Params) (program : List Byte) (n : Nat) :
    (State.started p program n).errInfo = 0 := rfl
@[simp] theorem State.started_trace (p : Params) (program : List Byte) (n : Nat) :
    (State.started p program n).trace = [] := rfl

@[simp] theorem State.withDataW_params (s : State) (w : Nat) : (s.withDataW w).params = { s.params with dataW := w } := rfl
@[simp] theorem State.withDataW_memSize (s : State) (w : Nat) : (s.withDataW w).memSize = s.memSize := rfl
@[simp] theorem State.withDataW_program (s : State) (w : Nat) : (s.withDataW w).program = s.program := rfl
@[simp] theorem State.withDataW_pc (s : State) (w : Nat) : (s.withDataW w).pc = s.pc := rfl
@[simp] theorem State.withDataW_stack (s : State) (w : Nat) : (s.withDataW w).stack = s.stack := rfl
@[simp] theorem State.withDataW_mem (s : State) (w : Nat) : (s.withDataW w).mem = s.mem := rfl
@[simp] theorem State.withDataW_runState (s : State) (w : Nat) : (s.withDataW w).runState = s.runState := rfl
@[simp] theorem State.withDataW_errCode (s : State) (w : Nat) : (s.withDataW w).errCode = s.errCode := rfl
@[simp] theorem State.withDataW_errPc (s : State) (w : Nat) : (s.withDataW w).errPc = s.errPc := rfl
@[simp] theorem State.withDataW_errWord (s : State) (w : Nat) : (s.withDataW w).errWord = s.errWord := rfl
@[simp] theorem State.withDataW_errInfo (s : State) (w : Nat) : (s.withDataW w).errInfo = s.errInfo := rfl
@[simp] theorem State.withDataW_trace (s : State) (w : Nat) : (s.withDataW w).trace = s.trace := rfl
@[simp] theorem State.withTrace_params (s : State) (t : List TraceRec) : (s.withTrace t).params = s.params := rfl
@[simp] theorem State.withTrace_memSize (s : State) (t : List TraceRec) : (s.withTrace t).memSize = s.memSize := rfl
@[simp] theorem State.withTrace_program (s : State) (t : List TraceRec) : (s.withTrace t).program = s.program := rfl
@[simp] theorem State.withTrace_pc (s : State) (t : List TraceRec) : (s.withTrace t).pc = s.pc := rfl
@[simp] theorem State.withTrace_stack (s : State) (t : List TraceRec) : (s.withTrace t).stack = s.stack := rfl
@[simp] theorem State.withTrace_mem (s : State) (t : List TraceRec) : (s.withTrace t).mem = s.mem := rfl
@[simp] theorem State.withTrace_runState (s : State) (t : List TraceRec) : (s.withTrace t).runState = s.runState := rfl
@[simp] theorem State.withTrace_errCode (s : State) (t : List TraceRec) : (s.withTrace t).errCode = s.errCode := rfl
@[simp] theorem State.withTrace_errPc (s : State) (t : List TraceRec) : (s.withTrace t).errPc = s.errPc := rfl
@[simp] theorem State.withTrace_errWord (s : State) (t : List TraceRec) : (s.withTrace t).errWord = s.errWord := rfl
@[simp] theorem State.withTrace_errInfo (s : State) (t : List TraceRec) : (s.withTrace t).errInfo = s.errInfo := rfl
@[simp] theorem State.withTrace_trace (s : State) (t : List TraceRec) : (s.withTrace t).trace = t := rfl

/-- Two states with equal fields are equal. -/
@[ext] theorem State.ext_fields {s t : State} 
    (h_params : s.params = t.params) (h_memSize : s.memSize = t.memSize) (h_program : s.program = t.program) (h_pc : s.pc = t.pc) 
    (h_stack : s.stack = t.stack) (h_mem : s.mem = t.mem) (h_runState : s.runState = t.runState) (h_errCode : s.errCode = t.errCode) 
    (h_errPc : s.errPc = t.errPc) (h_errWord : s.errWord = t.errWord) (h_errInfo : s.errInfo = t.errInfo) (h_trace : s.trace = t.trace) : s = t := by
  cases s; cases t; simp_all

end Sys2Proof.Machine
end

