-- ==== Sys2Proof/Laws/Ops.lean ====
section
/-! SUPPORT. Everything the shared operations can do: the operand forms, the stack engine, the bounds check, fetching,
and the frame of the fetch offset. -/

namespace Sys2Proof.Machine

/-- A literal that fits as a non-negative value is unchanged by the extension (41_stack_load R120: "Because
`DATA_W >= 14`"). -/
theorem zextEntry_eq {w n : Nat} (hw : 14 ≤ w) (hn : n < 2 ^ 13) : zextEntry w n = n := by
  have h1 : (2 : Nat) ^ 13 ≤ 2 ^ (w - 1) := Nat.pow_le_pow_right (by decide) (by omega)
  have h2 : (2 : Nat) ^ w = 2 * 2 ^ (w - 1) := by
    rw [← Nat.pow_succ']
    congr 1
    omega
  have hm : n % 2 ^ w = n := Nat.mod_eq_of_lt (by omega)
  rw [zextEntry, BitVec.toInt_eq_toNat_cond, BitVec.toNat_ofNat, hm, if_pos (by omega)]

/-- The value of a pattern of `w` bits fits `w` bits. -/
theorem fitsWidth_toInt {w : Nat} (v : BitVec w) : fitsWidth w v.toInt := by
  rcases Nat.eq_zero_or_pos w with rfl | hw
  · rw [BitVec.of_length_zero (x := v)]
    decide
  · exact ⟨BitVec.le_toInt v, BitVec.toInt_lt⟩

theorem fitsWidth_zextEntry (w n : Nat) : fitsWidth w (zextEntry w n) := fitsWidth_toInt _

theorem fitsWidth_zero (w : Nat) : fitsWidth w 0 := by
  have h : (0 : Int) < 2 ^ (w - 1) := by positivity
  exact ⟨by omega, h⟩

@[simp] theorem directAddress_toNat (a : Nat) : (directAddress a).toNat = a := rfl

@[simp] theorem notEqualResult_self (v : Value) : notEqualResult v v = 0 := by simp [notEqualResult]

theorem notEqualResult_of_ne {m v : Value} (h : m ≠ v) : notEqualResult m v = 1 := by simp [notEqualResult, h]

theorem notEqualResult_lt (m v : Value) : notEqualResult m v < 2 := by
  unfold notEqualResult
  split <;> decide

theorem inRange_iff (a : Int) (s : State) : inRange a s = true ↔ 0 ≤ a ∧ a < s.memSize := by simp [inRange]

theorem inRange_direct (a : Nat) (s : State) : inRange (directAddress a) s = true ↔ a < s.memSize := by
  simp [inRange, directAddress]

theorem push_full {v : Value} {s : State} (h : s.sp = s.params.stackDepth) :
    push v s = .next (raise .stackOverflow s.fpc s.cycleWord 0 s) := by
  rw [push, if_pos h, raiseInCycle]

theorem push_room {v : Value} {s : State} (h : s.sp ≠ s.params.stackDepth) :
    push v s = .next (s.setStack (s.stack ++ [v])) := by
  rw [push, if_neg h]

theorem popThen_empty {rest : Value → State → Result} {s : State} (h : s.stack = []) :
    popThen rest s = .next (raise .stackUnderflow s.fpc s.cycleWord 0 s) := by
  simp [popThen, h, raiseInCycle]

theorem popThen_concat {rest : Value → State → Result} {s : State} {st : List Value} {v : Value}
    (h : s.stack = st ++ [v]) : popThen rest s = rest v (s.setStack st) := by
  simp [popThen, h]

theorem inRangeThen_pos {a : Int} {rest : Nat → State → Result} {s : State} (h : inRange a s = true) :
    inRangeThen a rest s = rest a.toNat s := by
  rw [inRangeThen, if_pos h]

theorem inRangeThen_neg {a : Int} {rest : Nat → State → Result} {s : State} (h : inRange a s = false) :
    inRangeThen a rest s = .next (raise .outOfRange s.fpc s.cycleWord a s) := by
  rw [inRangeThen, if_neg (by simp [h]), raiseInCycle]

/-- A stack is empty or has a top. -/
theorem stack_cases (l : List Value) : l = [] ∨ ∃ st v, l = st ++ [v] := by
  rcases List.eq_nil_or_concat l with h | ⟨st, v, h⟩
  · exact .inl h
  · exact .inr ⟨st, v, by simpa using h⟩

/-- A pop moves neither the program nor `pc`, so the cycle's offset and word stay. -/
@[simp] theorem State.fpc_setStack (s : State) (st : List Value) : (s.setStack st).fpc = s.fpc := rfl

@[simp] theorem State.cycleWord_setStack (s : State) (st : List Value) :
    (s.setStack st).cycleWord = s.cycleWord := rfl

@[simp] theorem inRange_setStack (a : Int) (s : State) (st : List Value) :
    inRange a (s.setStack st) = inRange a s := rfl

@[simp] theorem inRange_setPc (a : Int) (s : State) (p : Nat) : inRange a (s.setPc p) = inRange a s := rfl

/-- After the advance the cycle's offset is the fetch offset (40_sequencer R104). -/
@[simp] theorem State.fpc_setPc_add (s : State) (p : Nat) : (s.setPc (p + 4)).fpc = p := by
  simp [State.fpc]

@[simp] theorem State.cycleWord_setPc_add (s : State) (p : Nat) :
    (s.setPc (p + 4)).cycleWord = fetch32 s.program p := by
  simp [State.cycleWord]

theorem length_progRead {program : List Byte} {a n : Nat} (h : a + n ≤ program.length) :
    (progRead program a n).length = n := by
  simp [progRead]
  omega

/-- A whole word is fetched from its four bytes, little-endian (20_memory R52). -/
theorem fetch32_eq {program : List Byte} {a : Nat} {b0 b1 b2 b3 : Byte}
    (h : progRead program a 4 = [b0, b1, b2, b3]) : fetch32 program a = wordOfBytes b0 b1 b2 b3 := by
  rw [fetch32, h]

/-- Where a whole word stands, its bytes are the fetched word's bytes (30_encoding R84). -/
theorem wordBytes_fetch32 {program : List Byte} {a : Nat} (h : a + 4 ≤ program.length) :
    wordBytes (fetch32 program a) = progRead program a 4 := by
  have hl := length_progRead h
  rcases hb : progRead program a 4 with _ | ⟨b0, _ | ⟨b1, _ | ⟨b2, _ | ⟨b3, _ | ⟨b4, l⟩⟩⟩⟩⟩ <;>
    simp_all
  rw [fetch32_eq hb, wordBytes_wordOfBytes]

end Sys2Proof.Machine
end

