-- ==== Sys2Proof/Laws/Exec.lean ====
section
/-! SUPPORT. Everything an instruction and a cycle can do, said once: the inversion of `exec` and of `cycle`. -/

namespace Sys2Proof.Machine

/-- The outcomes of the `execute` step (41_stack_load R120, 42_memory_access R130 and R135, 43_compare R150), each with
the condition it happens under. -/
inductive ExecCase (s : State) : Instr → State → Prop where
  | loaded (n : Nat) (room : s.sp ≠ s.params.stackDepth) :
      ExecCase s (.loadConst n) (s.setStack (s.stack ++ [zextEntry s.params.dataW n]))
  | loadOverflow (n : Nat) (full : s.sp = s.params.stackDepth) :
      ExecCase s (.loadConst n) (raise .stackOverflow s.fpc s.cycleWord 0 s)
  | readPushed (a : Nat) (range : a < s.memSize) (room : s.sp ≠ s.params.stackDepth) :
      ExecCase s (.readFromMemory a) (s.setStack (s.stack ++ [s.mem.read a]))
  | readOverflow (a : Nat) (range : a < s.memSize) (full : s.sp = s.params.stackDepth) :
      ExecCase s (.readFromMemory a) (raise .stackOverflow s.fpc s.cycleWord 0 s)
  | readOutside (a : Nat) (range : s.memSize ≤ a) :
      ExecCase s (.readFromMemory a) (raise .outOfRange s.fpc s.cycleWord a s)
  | wrote (a : Nat) (st : List Value) (v : Value) (top : s.stack = st ++ [v]) (range : a < s.memSize) :
      ExecCase s (.writeToMemory a) ((s.setStack st).setMem (s.mem.write a v))
  | writeUnderflow (a : Nat) (empty : s.stack = []) :
      ExecCase s (.writeToMemory a) (raise .stackUnderflow s.fpc s.cycleWord 0 s)
  | writeOutside (a : Nat) (st : List Value) (v : Value) (top : s.stack = st ++ [v]) (range : s.memSize ≤ a) :
      ExecCase s (.writeToMemory a) (raise .outOfRange s.fpc s.cycleWord a (s.setStack st))
  | compared (off : Nat) (st : List Value) (v : Value) (top : s.stack = st ++ [v])
      (low : 0 ≤ off + v) (range : off + v < s.memSize) (room : st.length ≠ s.params.stackDepth) :
      ExecCase s (.notEqual off) (s.setStack (st ++
        [zextEntry s.params.dataW (notEqualResult (s.mem.read (off + v).toNat) v)]))
  | compareOverflow (off : Nat) (st : List Value) (v : Value) (top : s.stack = st ++ [v])
      (low : 0 ≤ off + v) (range : off + v < s.memSize) (full : st.length = s.params.stackDepth) :
      ExecCase s (.notEqual off) (raise .stackOverflow s.fpc s.cycleWord 0 (s.setStack st))
  | compareUnderflow (off : Nat) (empty : s.stack = []) :
      ExecCase s (.notEqual off) (raise .stackUnderflow s.fpc s.cycleWord 0 s)
  | compareOutside (off : Nat) (st : List Value) (v : Value) (top : s.stack = st ++ [v])
      (range : ¬ (0 ≤ off + v ∧ off + v < s.memSize)) :
      ExecCase s (.notEqual off) (raise .outOfRange s.fpc s.cycleWord (off + v) (s.setStack st))

theorem execLoadConst_case (n : Nat) (s : State) :
    ∃ t, execLoadConst n s = .next t ∧ ExecCase s (.loadConst n) t := by
  by_cases h : s.sp = s.params.stackDepth
  · exact ⟨_, push_full h, .loadOverflow n h⟩
  · exact ⟨_, push_room h, .loaded n h⟩

theorem execReadFromMemory_case (a : Nat) (s : State) :
    ∃ t, execReadFromMemory a s = .next t ∧ ExecCase s (.readFromMemory a) t := by
  unfold execReadFromMemory
  cases hr : inRange (directAddress a) s with
  | false =>
    refine ⟨_, inRangeThen_neg hr, .readOutside a ?_⟩
    rw [Bool.eq_false_iff, Ne, inRange_direct] at hr
    omega
  | true =>
    rw [inRangeThen_pos hr, directAddress_toNat]
    rw [inRange_direct] at hr
    by_cases h : s.sp = s.params.stackDepth
    · exact ⟨_, push_full h, .readOverflow a hr h⟩
    · exact ⟨_, push_room h, .readPushed a hr h⟩

theorem execWriteToMemory_case (a : Nat) (s : State) :
    ∃ t, execWriteToMemory a s = .next t ∧ ExecCase s (.writeToMemory a) t := by
  unfold execWriteToMemory
  rcases stack_cases s.stack with h | ⟨st, v, h⟩
  · exact ⟨_, popThen_empty h, .writeUnderflow a h⟩
  · rw [popThen_concat h]
    cases hr : inRange (directAddress a) (s.setStack st) with
    | false =>
      refine ⟨_, inRangeThen_neg hr, .writeOutside a st v h ?_⟩
      rw [Bool.eq_false_iff, Ne, inRange_direct] at hr
      simpa using hr
    | true =>
      rw [inRangeThen_pos hr]
      exact ⟨_, rfl, .wrote a st v h ((inRange_direct a _).1 hr)⟩

theorem execNotEqual_case (off : Nat) (s : State) :
    ∃ t, execNotEqual off s = .next t ∧ ExecCase s (.notEqual off) t := by
  unfold execNotEqual
  rcases stack_cases s.stack with h | ⟨st, v, h⟩
  · exact ⟨_, popThen_empty h, .compareUnderflow off h⟩
  · rw [popThen_concat h]
    cases hr : inRange (offsetAddress off v) (s.setStack st) with
    | false =>
      refine ⟨_, inRangeThen_neg hr, .compareOutside off st v h ?_⟩
      rw [Bool.eq_false_iff, Ne, inRange_iff] at hr
      exact hr
    | true =>
      rw [inRangeThen_pos hr]
      rw [inRange_iff] at hr
      by_cases hf : st.length = s.params.stackDepth
      · exact ⟨_, push_full hf, .compareOverflow off st v h hr.1 hr.2 hf⟩
      · exact ⟨_, push_room hf, .compared off st v h hr.1 hr.2 hf⟩

/-- Every instruction answers a next state, one of the cases above. -/
theorem exec_case (i : Instr) (s : State) : ∃ t, exec i s = .next t ∧ ExecCase s i t := by
  cases i with
  | loadConst n => exact execLoadConst_case n s
  | readFromMemory a => exact execReadFromMemory_case a s
  | writeToMemory a => exact execWriteToMemory_case a s
  | notEqual off => exact execNotEqual_case off s

/-- The inversion form: a next state of `exec` is one of the cases. -/
theorem exec_inv {i : Instr} {s t : State} (h : exec i s = .next t) : ExecCase s i t := by
  obtain ⟨t', h', hc⟩ := exec_case i s
  rw [h] at h'
  cases h'
  exact hc

/-- The outcomes of one cycle (40_sequencer R101). -/
inductive CycleCase (s : State) : State → Prop where
  | exhausted (h : s.progLen ≤ s.pc) : CycleCase s (s.setRunState .haltedSuccess)
  | partialWord (h : s.pc < s.progLen) (h4 : s.progLen < s.pc + 4) :
      CycleCase s (raise .malformedProgram s.pc 0 ((s.progLen - s.pc : Nat) : Int) s)
  | invalid (h4 : s.pc + 4 ≤ s.progLen) (op : BitVec 5)
      (hd : decodeWord (fetch32 s.program s.pc) = .error op) :
      CycleCase s (raise .invalidBytecode s.pc (fetch32 s.program s.pc) op.toNat (s.setPc (s.pc + 4)))
  | raised (h4 : s.pc + 4 ≤ s.progLen) (i : Instr) (t : State)
      (hd : decodeWord (fetch32 s.program s.pc) = .ok i) (he : ExecCase (s.setPc (s.pc + 4)) i t)
      (hr : t.runState = .haltedError) : CycleCase s t
  | completed (h4 : s.pc + 4 ≤ s.progLen) (i : Instr) (t : State)
      (hd : decodeWord (fetch32 s.program s.pc) = .ok i) (he : ExecCase (s.setPc (s.pc + 4)) i t)
      (hr : t.runState ≠ .haltedError) :
      CycleCase s (t.appendTrace (traceRecord s.pc (fetch32 s.program s.pc) i t))

/-- Every cycle answers a next state, one of the cases above. -/
theorem cycle_case (s : State) : ∃ t, cycle s = .next t ∧ CycleCase s t := by
  unfold cycle
  split
  · rename_i h
    exact ⟨_, rfl, .exhausted h⟩
  · split
    · exact ⟨_, rfl, .partialWord (by omega) (by omega)⟩
    · have h4 : s.pc + 4 ≤ s.progLen := by omega
      unfold decodeAndExecute
      cases hd : decodeWord (fetch32 s.program s.pc) with
      | error op => exact ⟨_, rfl, .invalid h4 op hd⟩
      | ok i =>
        obtain ⟨t, ht, hc⟩ := exec_case i (s.setPc (s.pc + 4))
        simp only [ht, retire]
        split
        · rename_i hr
          exact ⟨_, rfl, .raised h4 i t hd hc hr⟩
        · rename_i hr
          exact ⟨_, rfl, .completed h4 i t hd hc hr⟩

theorem step_running {s : State} (h : s.runState = .running) : step s = cycle s := by simp [step, h]

theorem step_idle {s : State} (h : s.runState ≠ .running) : step s = .next s := by
  unfold step
  cases hr : s.runState <;> simp_all [idle]

/-- Every step answers a next state: the same state outside RUNNING, a cycle's outcome in it. -/
theorem step_case (s : State) :
    ∃ t, step s = .next t ∧ ((s.runState ≠ .running ∧ t = s) ∨ (s.runState = .running ∧ CycleCase s t)) := by
  by_cases h : s.runState = .running
  · obtain ⟨t, ht, hc⟩ := cycle_case s
    exact ⟨t, by rw [step_running h, ht], .inr ⟨h, hc⟩⟩
  · exact ⟨s, step_idle h, .inl ⟨h, rfl⟩⟩

/-- The inversion form: a next state of `step`. -/
theorem step_inv {s t : State} (h : step s = .next t) :
    (s.runState ≠ .running ∧ t = s) ∨ (s.runState = .running ∧ CycleCase s t) := by
  obtain ⟨t', h', hc⟩ := step_case s
  rw [h] at h'
  cases h'
  exact hc

/-- One step of a run of any machine behind the host's interface. -/
theorem run_succ (M : Host.Core) (k : Nat) (s t : M.State) (h : M.step s = .next t) :
    M.run (k + 1) s = M.run k t := by
  simp only [Host.Core.run, h]

/-- A run of cycles, one step at a time. -/
theorem runCycles_succ {k : Nat} {s t : State} (h : step s = .next t) : runCycles (k + 1) s = runCycles k t :=
  run_succ Sys2Proof.core k s t h

@[simp] theorem runCycles_zero (s : State) : runCycles 0 s = .next s := rfl

/-- A property that every step keeps holds after any number of steps. -/
theorem runCycles_keeps {P : State → Prop} (hstep : ∀ s t, step s = .next t → P s → P t) {k : Nat} {s t : State}
    (h : runCycles k s = .next t) (hs : P s) : P t := by
  induction k generalizing s with
  | zero =>
    cases h
    exact hs
  | succ k ih =>
    obtain ⟨u, hu, -⟩ := step_case s
    rw [runCycles_succ hu] at h
    exact ih h (hstep s u hu hs)

end Sys2Proof.Machine
end

