-- ==== Sys2Proof/Laws/PerInstr.lean ====
section
/-! SUPPORT. A statement about every instruction as syntax, one lemma per constructor. -/

namespace Sys2Proof.Laws.EncodedOpcode

/-- The low 5 bits of a well-formed instruction's canonical word are its opcode (30_encoding R70, R80). -/
def Statement (i : Instr) : Prop := i.wf = true → opcodeField (encode i) = i.opcode.bits

/-- The shared argument. -/
theorem of_wf (i : Instr) : Statement i := by
  intro h
  have hc := i.opcode.code_lt
  apply BitVec.eq_of_toNat_eq
  rw [opcodeField_toNat, encode_toNat h, Opcode.bits, BitVec.toNat_ofNat]
  omega

theorem loadConst (imm13 : Nat) : Statement (.loadConst imm13) := of_wf _

theorem readFromMemory (addr23 : Nat) : Statement (.readFromMemory addr23) := of_wf _

theorem writeToMemory (addr23 : Nat) : Statement (.writeToMemory addr23) := of_wf _

theorem notEqual (off11 : Nat) : Statement (.notEqual off11) := of_wf _

end Sys2Proof.Laws.EncodedOpcode
end

