-- ==== Sys2Proof/Tests/Slice0.lean ====
section
/-! SUPPORT. Small tests. Expected results are those of spec/95_test_vectors.md (ids in the comments) and of 30_encoding
R71 and R93; then, for each obligation with hypotheses, a witness that meets them. -/

namespace Sys2Proof.Tests

open Sys2Proof Sys2Proof.Machine

/-- The next state of an outcome. -/
def after : Result → Option State
  | .next s => some s
  | .fault _ => none
  | .refused _ => none

/-- A RUNNING state with 16 cells, a program, and preloaded memory and stack. -/
def boot (program : List Byte) (mem : Memory) (stack : List Value) : State :=
  { State.started Params.default program 16 with mem := mem, stack := stack }

/-- `boot` with another STACK_DEPTH. -/
def bootDepth (depth : Nat) (program : List Byte) (stack : List Value) : State :=
  { State.started { Params.default with stackDepth := depth } program 16 with stack := stack }

/-- The run state and the error registers. -/
structure Registers where
  runState : RunState
  errCode : ErrCode
  errPc : Nat
  errWord : InstrWord
  errInfo : Int
deriving DecidableEq, Repr

/-- The run state and the error registers of a state. -/
def errorOf (s : State) : Registers := ⟨s.runState, s.errCode, s.errPc, s.errWord, s.errInfo⟩

-- ---------------------------------------------------------------- well-formedness: each bound refused just above it

theorem test_wf_refuses_loadConst : (Instr.loadConst 8192).wf = false := by decide
theorem test_wf_refuses_readFromMemory : (Instr.readFromMemory 8388608).wf = false := by decide
theorem test_wf_refuses_writeToMemory : (Instr.writeToMemory 8388608).wf = false := by decide
theorem test_wf_refuses_notEqual : (Instr.notEqual 2048).wf = false := by decide

theorem test_wf_takes_largest :
    (Instr.loadConst 8191).wf ∧ (Instr.readFromMemory 8388607).wf ∧ (Instr.writeToMemory 8388607).wf ∧
      (Instr.notEqual 2047).wf := by decide

-- ---------------------------------------------------------------- decoding: words written out field by field (R71)

/-- imm13 = 0000001100100, opcode = 11010 (E3). -/
theorem test_decode_loadConst :
    decodeWord 0b00000000000000_0000001100100_11010 = .ok (.loadConst 100) := by decide

/-- addr23 = 00000000000000000001010, opcode = 10010. -/
theorem test_decode_readFromMemory :
    decodeWord 0b0000_00000000000000000001010_10010 = .ok (.readFromMemory 10) := by decide

/-- addr23 = 00000000000000000010100, opcode = 10111. -/
theorem test_decode_writeToMemory :
    decodeWord 0b0000_00000000000000000010100_10111 = .ok (.writeToMemory 20) := by decide

/-- off11 = 11111111111, opcode = 10001. -/
theorem test_decode_notEqual : decodeWord 0b0000000000000000_11111111111_10001 = .ok (.notEqual 2047) := by decide

/-- V-D2 to V-D6: a 5-bit opcode, and the bits above the operand ignored. -/
theorem test_decode_ignores_high_bits :
    decodeWord 0x0000003A = .ok (.loadConst 1) ∧ decodeWord 0xFFFFFFFA = .ok (.loadConst 8191) ∧
      decodeWord 0xF0000012 = .ok (.readFromMemory 0) ∧ decodeWord 0x80000017 = .ok (.writeToMemory 0) ∧
      decodeWord 0xFFFFFFF1 = .ok (.notEqual 2047) := by decide

/-- V-D8 to V-D12. -/
theorem test_decode_illegal :
    decodeWord 0x00000000 = .error 0 ∧ decodeWord 0x0000001F = .error 31 ∧ decodeWord 0x0000003B = .error 27 ∧
      decodeWord 0xFFFFFFFF = .error 31 ∧ decodeWord 0x00000020 = .error 0 := by decide

/-- The bytes of `READ_FROM_MEMORY 10` (R93), and too few bytes. -/
theorem test_decodeBytes :
    decodeBytes [0x52, 0x01, 0x00, 0x00, 0x17] = .ok (.readFromMemory 10, [0x17]) ∧
      decodeBytes [0x52, 0x01, 0x00] = .error (.partialWord 3) := by decide

/-- E2: the encoder's bounds. -/
theorem test_encodeChecked_bounds :
    encodeChecked .loadConst 8191 = .ok 0x0003FFFA ∧ encodeChecked .loadConst 8192 = .error (.below 8192) ∧
      encodeChecked .readFromMemory 8388607 = .ok 0x0FFFFFF2 ∧
      encodeChecked .writeToMemory 8388608 = .error (.below 8388608) ∧
      encodeChecked .notEqual 2047 = .ok 0x0000FFF1 ∧ encodeChecked .notEqual (-1) = .error .nonNegative := by decide

/-- Each table row's word decodes and is the first instruction that runs after reset. -/
theorem test_withFetchWord_runs_first :
    decodeTableWord 32 0x12 = some (.readFromMemory 0) ∧
      (after (step (State.reset.withFetchWord 32 0x12))).map (fun t => (t.pc, t.stack, t.runState)) =
        some (4, [0], .running) := by decide

-- ---------------------------------------------------------------- one step of each instruction

/-- E4: LOAD_CONST 100, and its trace record. -/
theorem test_loadConst_pushes :
    (after (step (boot [0x9A, 0x0C, 0x00, 0x00] [] []))).map (fun t => (t.pc, t.stack, t.trace)) =
      some (4, [100], [⟨[0x9A, 0x0C, 0x00, 0x00], 26, 100, [100], [0, 0, 0, 0, 0, 0, 0, 0, 0, 0]⟩]) := by decide

/-- V-L4: a full stack. -/
theorem test_loadConst_overflows :
    (after (step (bootDepth 2 [0x1A, 0x00, 0x00, 0x00] [5, 6]))).map (fun t => (errorOf t, t.stack, t.trace)) =
      some (⟨.haltedError, .stackOverflow, 0, 0x0000001A, 0⟩, [5, 6], []) := by decide

/-- V-R1: the last cell, a negative value. -/
theorem test_readFromMemory_pushes :
    (after (step (boot [0xF2, 0x01, 0x00, 0x00] [(15, -3)] []))).map (fun t => (t.stack, t.mem)) =
      some ([-3], [(15, -3)]) := by decide

/-- V-R6: the range check comes before the push. -/
theorem test_readFromMemory_range_first :
    (after (step (bootDepth 1 [0x12, 0x02, 0x00, 0x00] [1]))).map (fun t => (errorOf t, t.stack)) =
      some (⟨.haltedError, .outOfRange, 0, 0x00000212, 16⟩, [1]) := by decide

/-- V-W1. -/
theorem test_writeToMemory_stores :
    (after (step (boot [0xF7, 0x01, 0x00, 0x00] [] [1, 2]))).map (fun t => (t.stack, t.mem)) =
      some ([1], [(15, 2)]) := by decide

/-- V-W2: the pop stays done, memory unchanged. -/
theorem test_writeToMemory_outside :
    (after (step (boot [0x17, 0x02, 0x00, 0x00] [] [1, 2]))).map (fun t => (errorOf t, t.pc, t.stack, t.mem)) =
      some (⟨.haltedError, .outOfRange, 0, 0x00000217, 16⟩, 4, [1], []) := by decide

/-- V-N5: a negative popped value, an equal cell. -/
theorem test_notEqual_equal_cell :
    (after (step (boot [0x51, 0x00, 0x00, 0x00] [(0, -2)] [-2]))).map (fun t => t.stack) = some [0] := by decide

/-- V-N4: a negative address. -/
theorem test_notEqual_negative_address :
    (after (step (boot [0x51, 0x00, 0x00, 0x00] [] [-3]))).map (fun t => (errorOf t, t.stack)) =
      some (⟨.haltedError, .outOfRange, 0, 0x00000051, -1⟩, []) := by decide

-- ---------------------------------------------------------------- the cycle

/-- V-Q4: a partial word. -/
theorem test_partial_word :
    (after (step (boot [0x3A, 0x00, 0x00] [] []))).map (fun t => (errorOf t, t.pc)) =
      some (⟨.haltedError, .malformedProgram, 0, 0, 3⟩, 0) := by decide

/-- E8: an illegal word. -/
theorem test_illegal_word :
    (after (step (boot [0x00, 0x00, 0x00, 0x00] [] []))).map (fun t => (errorOf t, t.pc, t.trace)) =
      some (⟨.haltedError, .invalidBytecode, 0, 0, 0⟩, 4, []) := by decide

/-- P1, its four words and the exhaustion cycle. -/
theorem test_program_P1 :
    (after (interpret [0xFA, 0, 0, 0, 0x77, 0, 0, 0, 0x72, 0, 0, 0, 0x11, 0, 0, 0] 16 State.reset)).map
      (fun t => (t.runState, t.stack, t.mem, t.trace.length)) =
      some (.haltedSuccess, [1], [(3, 7)], 4) := by decide

-- ---------------------------------------------------------------- the assembler

/-- V-A8 and E3. -/
theorem test_assemble_lines :
    assembleLine "\tLOAD_CONST   007  ".toList = .ok (some
      { mnemonic := "LOAD_CONST".toList, opcode := 26, operand := 7, bytes := [0xFA, 0x00, 0x00, 0x00] }) ∧
    (assembleText "LOAD_CONST 100\n".toList).bytes = [0x9A, 0x0C, 0x00, 0x00] := by decide

/-- V-A3 to V-A7, E9, E10. -/
theorem test_assemble_errors :
    assembleLine "LOAD_CONST -1".toList = .error (.rangeError .nonNegative) ∧
      assembleLine "LOAD_CONST abc".toList = .error .syntaxError ∧
      assembleLine "LOAD_CONST".toList = .error .syntaxError ∧
      assembleLine "LOAD_CONST 1 2".toList = .error .syntaxError ∧
      assembleLine "load_const 1".toList = .error .syntaxError ∧
      assembleLine "LEE_KNOW 100".toList = .error .syntaxError ∧
      assembleLine "LOAD_CONST 99999".toList = .error (.rangeError (.below 8192)) := by decide

/-- V-A12 and V-A13. -/
theorem test_assemble_fails_fast :
    (assemble ["LOAD_CONST 1".toList, "BAD 2".toList, "LOAD_CONST 3".toList]).bytes = [0x3A, 0x00, 0x00, 0x00] ∧
      (assemble ["LOAD_CONST 1".toList, "BAD 2".toList, "LOAD_CONST 3".toList]).error =
        some { line := 2, kind := .syntaxError } ∧
      (assemble [[], "LOAD_CONST 9999".toList]).error =
        some { line := 2, kind := .rangeError (.below 8192) } := by decide

-- ---------------------------------------------------------------- witnesses: the hypotheses of each obligation are met

/-- A small RUNNING state between two instructions: 16 cells, two of them listed, a stack of two. -/
def wit : State :=
  { State.started Params.default [0x3A, 0, 0, 0, 0x37, 0, 0, 0, 0x11, 0, 0, 0] 16 with
    mem := [(3, 7), (15, 5)], stack := [9, 3] }

/-- The same state, halted with success. -/
def witHalted : State := wit.setRunState .haltedSuccess

/-- The same state in READY. -/
def witReady : State := wit.setRunState .ready

theorem wit_inv : wit.Inv := by constructor <;> decide

theorem wit_traceInv : wit.TraceInv := by constructor <;> decide

theorem wit_smallValues : wit.SmallValues :=
  ⟨by decide, fun a => Memory.read_of_forall (P := fun v => 0 ≤ v ∧ v ≤ 8191) (by decide) (by decide) a⟩

theorem witness_ResetMakesFreshState :
    [0x3A, 0, 0 ,0].length < 2 ^ wit.params.pcW ∧ (-1 : Int) < 0 := by decide

theorem witness_StartedRunMeetsInvariants :
    wit.params.wf ∧ hostReset [] 0 wit = .next (State.resetWith wit.params [] 0) := ⟨by decide, rfl⟩

theorem witness_ResetForgetsEarlierRun : wit.params = State.reset.params ∧ wit ≠ State.reset := by decide

/-- Each clause: outside READY, address 16 and -1, address 15 and 0, a full and an almost full stack. -/
theorem witness_PreloadOnlyInReady :
    wit.mem.wf = true ∧ wit.runState ≠ .ready ∧ witReady.runState = .ready ∧
      ¬ ((0 : Int) ≤ 16 ∧ (16 : Int) < witReady.memSize) ∧ ¬ ((0 : Int) ≤ -1 ∧ (-1 : Int) < witReady.memSize) ∧
      (0 : Int) ≤ 15 ∧ (15 : Int) < witReady.memSize ∧
      ((bootDepth 2 [] [5, 6]).setRunState .ready).stack.length =
        ((bootDepth 2 [] [5, 6]).setRunState .ready).params.stackDepth ∧
      ((bootDepth 2 [] [5]).setRunState .ready).stack.length <
        ((bootDepth 2 [] [5]).setRunState .ready).params.stackDepth := by decide

theorem witness_HostOperationsKeepInvariant :
    witReady.Inv ∧ witReady.TraceInv ∧ hostStart witReady = .next wit ∧
      hostPreloadMem witReady 15 (-3) = .next (witReady.setMem [(3, 7), (15, -3)]) ∧
      hostPreloadPush witReady (-3) = .next (witReady.setStack [9, 3, -3]) :=
  ⟨by constructor <;> decide, by constructor <;> decide, rfl, rfl, rfl⟩

theorem witness_HostReadsResultAfterHalt :
    witHalted.runState = .haltedSuccess ∧ (15 : Nat) < witHalted.memSize ∧ witHalted.memSize ≤ 16 ∧ (-1 : Int) < 0 ∧
      (wit.setRunState .haltedError).runState = .haltedError ∧ witReady.runState = .ready := by decide

theorem witness_InterpretAlwaysHasResult : [0x3A, 0, 0, 0, 0x17].length < 2 ^ wit.params.pcW := by decide

theorem witness_CyclesRunOnlyWhileRunning : witReady.runState ≠ .running ∧ wit.runState = .running := by decide

theorem witness_HaltedIsTerminal : witHalted.runState.halted = true := by decide

theorem witness_RunStateTransitions :
    witReady.runState = .ready ∧ wit.runState ≠ .ready ∧
      step wit = .next (Option.get (after (step wit)) (by decide)) ∧ wit.errCode = .noError ∧
      witHalted.runState ≠ .running ∧ step witHalted = .next witHalted := ⟨rfl, by decide, rfl, rfl, by decide, rfl⟩

theorem witness_StepRunsDecodedInstruction :
    wit.runState = .running ∧
      decodeBytes (wit.program.drop wit.pc) = .ok (.loadConst 1, [0x37, 0, 0, 0, 0x11, 0, 0, 0]) := by decide

theorem witness_ExhaustionHaltsWithSuccess :
    (wit.setPc 12).runState = .running ∧ (wit.setPc 12).progLen ≤ (wit.setPc 12).pc ∧
      (wit.setPc 12).pc ≤ (wit.setPc 12).progLen ∧
      step (wit.setPc 12) = .next ((wit.setPc 12).setRunState .haltedSuccess) := ⟨rfl, by decide, by decide, rfl⟩

/-- One and three bytes left. -/
theorem witness_PartialWordFaults :
    (0 < (boot [0x17] [] []).progLen - (boot [0x17] [] []).pc ∧
        (boot [0x17] [] []).progLen - (boot [0x17] [] []).pc < 4) ∧
      (0 < (boot [0x3A, 0, 0] [] []).progLen - (boot [0x3A, 0, 0] [] []).pc ∧
        (boot [0x3A, 0, 0] [] []).progLen - (boot [0x3A, 0, 0] [] []).pc < 4) ∧
      ([0x17] : List Byte).length < 2 ^ wit.params.pcW ∧ ([0x17] : List Byte).length % 4 ≠ 0 := by decide

theorem witness_InvalidOpcodeFaults :
    (boot [0x3B, 0, 0, 0] [] []).runState = .running ∧
      (boot [0x3B, 0, 0, 0] [] []).pc + 4 ≤ (boot [0x3B, 0, 0, 0] [] []).progLen ∧
      (fetch32 (boot [0x3B, 0, 0, 0] [] []).program 0).toNat % 32 ∉ ([17, 18, 23, 26] : List Nat) := by decide

theorem witness_RunningStepAdvancesOneWord :
    wit.runState = .running ∧
      (after (step wit)).map (fun t => (t.runState, t.pc)) = some (RunState.running, 4) ∧
      (after (exec (.loadConst 1) wit)).isSome := by decide

/-- Room, the last place, and a full stack; the largest literal; a word of the encoding. -/
theorem witness_LoadConstMeaning :
    14 ≤ wit.params.dataW ∧ 8191 < 2 ^ 13 ∧ wit.stack.length < wit.params.stackDepth ∧
      (bootDepth 3 [] [5, 6]).stack.length < (bootDepth 3 [] [5, 6]).params.stackDepth ∧
      (bootDepth 2 [] [5, 6]).stack.length = (bootDepth 2 [] [5, 6]).params.stackDepth ∧
      (0xFFFFFFFA : InstrWord).toNat % 32 = 26 := by decide

/-- The last cell and the address after it; a full stack in range. -/
theorem witness_ReadFromMemoryMeaning :
    15 < wit.memSize ∧ wit.stack.length < wit.params.stackDepth ∧ wit.memSize ≤ 16 ∧
      15 < (bootDepth 2 [] [5, 6]).memSize ∧
      (bootDepth 2 [] [5, 6]).stack.length = (bootDepth 2 [] [5, 6]).params.stackDepth ∧
      (0xF0000012 : InstrWord).toNat % 32 = 18 := by decide

theorem witness_WriteToMemoryMeaning :
    wit.mem.wf = true ∧ 15 < wit.memSize ∧ wit.stack = [9] ++ [3] ∧ (boot [] [] []).stack = [] ∧ wit.memSize ≤ 16 ∧
      (0x80000017 : InstrWord).toNat % 32 = 23 := by decide

/-- Addresses 0 (a negative value), 15, -1 and 16. -/
theorem witness_NotEqualMeaning :
    14 ≤ wit.params.dataW ∧ wit.stack.length ≤ wit.params.stackDepth ∧ wit.stack = [9] ++ [3] ∧
      (0 ≤ ((12 : Nat) : Int) + 3 ∧ ((12 : Nat) : Int) + 3 < wit.memSize) ∧ (boot [] [] []).stack = [] ∧
      (wit.memSize : Int) ≤ ((13 : Nat) : Int) + 3 ∧
      (boot [] [] [-3]).stack = [] ++ [-3] ∧ ((2 : Nat) : Int) + -3 < 0 ∧
      (boot [] [] [-2]).stack = [] ++ [-2] ∧ (0 ≤ ((2 : Nat) : Int) + -2 ∧ ((2 : Nat) : Int) + -2 < wit.memSize) ∧
      (0xFFFFFFF1 : InstrWord).toNat % 32 = 17 := by decide

theorem witness_NotEqualKeepsDepth :
    (bootDepth 2 [] [9, 0]).runState = .running ∧ 14 ≤ (bootDepth 2 [] [9, 0]).params.dataW ∧
      (bootDepth 2 [] [9, 0]).stack.length ≤ (bootDepth 2 [] [9, 0]).params.stackDepth ∧
      (bootDepth 2 [] [9, 0]).errCode ≠ .stackOverflow ∧
      (after (exec (.notEqual 0) (bootDepth 2 [] [9, 0]))).map (fun t => (t.runState, t.stack)) =
        some (RunState.running, [9, 0]) := by decide

/-- A completed and a raised outcome of each form. -/
theorem witness_NonStoringInstructionsFrame :
    wit.runState = .running ∧ (after (exec (.loadConst 1) wit)).map (fun t => t.runState) = some .running ∧
      (after (exec (.readFromMemory 16) wit)).map (fun t => t.runState) = some .haltedError ∧
      (after (exec (.notEqual 12) wit)).map (fun t => t.runState) = some .running := by decide

theorem witness_WriteToMemoryFrame :
    wit.runState = .running ∧ wit.mem.wf = true ∧ ((15 : Nat) : Int) = directAddress 15 ∧
      (after (exec (.writeToMemory 15) wit)).map (fun t => t.runState) = some .running ∧
      (after (exec (.writeToMemory 16) wit)).map (fun t => t.runState) = some .haltedError := by decide

theorem witness_PushAndPop :
    (bootDepth 2 [] [5, 6]).sp = (bootDepth 2 [] [5, 6]).params.stackDepth ∧ wit.sp ≠ wit.params.stackDepth ∧
      (boot [] [] []).sp = 0 ∧ wit.stack[wit.sp - 1]? = some 3 := by decide

theorem witness_LowerStackUnobserved : ([9] : List Value).length = ([-4] : List Value).length := by decide

theorem witness_ErrorKindsByInstruction :
    wit.runState = .running ∧ wit.stack.length ≤ wit.params.stackDepth ∧
      (after (exec (.writeToMemory 16) wit)).map (fun t => decide (t.runState ≠ .running)) = some true := by decide

/-- One run per error kind. -/
theorem witness_CycleFaultsAsRecorded :
    ([boot [0x17] [] [], boot [0x3B, 0, 0, 0] [] [], boot [0x12, 0x02, 0, 0] [] [], boot [0x17, 0x02, 0, 0] [] [1],
        boot [0x11, 0, 0, 0] [] [-1], boot [0x17, 0, 0, 0] [] [],
        bootDepth 2 [0x1A, 0, 0, 0] [5, 6]].map fun s =>
      (decide (s.runState = .running ∧ s.stack.length ≤ s.params.stackDepth),
        (after (step s)).map (fun t => (t.runState, t.errCode)))) =
    [(true, some (.haltedError, .malformedProgram)), (true, some (.haltedError, .invalidBytecode)),
      (true, some (.haltedError, .outOfRange)), (true, some (.haltedError, .outOfRange)),
      (true, some (.haltedError, .outOfRange)), (true, some (.haltedError, .stackUnderflow)),
      (true, some (.haltedError, .stackOverflow))] := by decide

/-- Each clause: exhausted, a partial word, a whole word. -/
theorem witness_CycleChecksInOrder :
    wit.runState = .running ∧ wit.stack.length ≤ wit.params.stackDepth ∧ (after (step wit)).isSome ∧
      (wit.setPc 12).progLen ≤ (wit.setPc 12).pc ∧
      ((boot [0x17] [] []).pc < (boot [0x17] [] []).progLen ∧
        (boot [0x17] [] []).progLen < (boot [0x17] [] []).pc + 4) ∧
      (wit.setPc 8).pc + 4 ≤ (wit.setPc 8).progLen := by decide

theorem witness_DecodeEncodeRoundTrip :
    (Instr.notEqual 2047).wf = true ∧ decodeWord 0xFFFFFFF1 = .ok (.notEqual 2047) := by decide

theorem witness_EncodedBytesDecode : (Instr.readFromMemory 8388607).wf = true := by decide

theorem witness_HighBitsIgnored : decodeWord 0xF0000012 = .ok (.readFromMemory 0) := by decide

/-- The bounds of each operand. -/
theorem witness_ReferenceEncoderRange :
    ((0 : Int) ≤ 8191 ∧ (8191 : Int) < 2 ^ Opcode.loadConst.width) ∧ (-1 : Int) < 0 ∧
      (2 : Int) ^ Opcode.notEqual.width ≤ 2048 := by decide

theorem witness_FetchLittleEndian :
    ([1, 2, 3, 4] : List Byte)[0]? = some 1 ∧ ([1, 2, 3, 4] : List Byte)[0 + 1]? = some 2 ∧
      ([1, 2, 3, 4] : List Byte)[0 + 2]? = some 3 ∧ ([1, 2, 3, 4] : List Byte)[0 + 3]? = some 4 := by decide

theorem witness_StepKeepsInvariant : wit.Inv ∧ step wit = .next (Option.get (after (step wit)) (by decide)) :=
  ⟨wit_inv, rfl⟩

theorem witness_StepKeepsTraceInvariant :
    wit.TraceInv ∧ step wit = .next (Option.get (after (step wit)) (by decide)) := ⟨wit_traceInv, rfl⟩

theorem witness_StepKeepsSmallValues :
    14 ≤ wit.params.dataW ∧ wit.mem.wf = true ∧ wit.SmallValues ∧
      step wit = .next (Option.get (after (step wit)) (by decide)) := ⟨by decide, by decide, wit_smallValues, rfl⟩

theorem witness_PcStaysAlignedInProgram :
    wit.pc % 4 = 0 ∧ wit.pc ≤ wit.progLen ∧ wit.progLen < 2 ^ wit.params.pcW ∧ (after (step wit)).isSome := by decide

theorem witness_NoPreloadRunIgnoresDataW : 14 ≤ Params.default.dataW ∧ 14 ≤ 14 := by decide

theorem witness_ProgramImmutable : (after (runCycles 2 wit)).isSome := by decide

/-- A store that changes memory, and a cycle that raises. -/
theorem witness_OnlyWriteToMemoryWrites :
    (wit.setPc 4).mem.wf = true ∧
      (after (step (wit.setPc 4))).map (fun t => decide (t.mem ≠ (wit.setPc 4).mem)) = some true ∧
      (boot [0x17, 0x02, 0, 0] [] [1]).runState = .running ∧
      (after (step (boot [0x17, 0x02, 0, 0] [] [1]))).map (fun t => t.runState) = some .haltedError := by decide

/-- Cells that two words do not write, a store of cell 1, and a read of cell 3. -/
theorem witness_ReadReturnsLastWrite :
    wit.mem.wf = true ∧ wit.runState = .running ∧ (after (runCycles 1 wit)).isSome ∧
      (∀ j < 1, decodeWord (fetch32 wit.program (wit.pc + 4 * j)) ≠ .ok (.writeToMemory 3)) ∧
      (after (step (wit.setPc 4))).map (fun t => t.runState) = some .running ∧
      decodeWord (fetch32 (wit.setPc 4).program (wit.setPc 4).pc) = .ok (.writeToMemory 1) ∧
      (after (step (boot [0x72, 0, 0, 0] [(3, 7)] []))).map (fun t => t.runState) = some .running ∧
      decodeWord (fetch32 (boot [0x72, 0, 0, 0] [(3, 7)] []).program 0) = .ok (.readFromMemory 3) := by decide

/-- A started run with a cell and a stack entry preloaded. -/
def witPreloaded : State :=
  { State.started Params.default [0x3A, 0, 0, 0] 16 with mem := [(3, 7)], stack := [5] }

theorem witness_TraceNeverRead :
    (after (runCycles 2 witPreloaded)).isSome := by decide

theorem witness_EveryRunHalts :
    wit.runState = .running ∧
      (after (runCycles 2 witPreloaded)).map (fun t => t.runState) =
        some .haltedSuccess := by decide

theorem witness_SuccessExecutesEveryWord :
    (after (runCycles 2 witPreloaded)).map (fun t => t.runState) =
        some .haltedSuccess ∧ ([0x3A, 0, 0, 0, 0x17] : List Byte).length % 4 ≠ 0 := by decide

theorem witness_DeepStackNeverOverflows :
    ([0x3A, 0, 0, 0] : List Byte).length / 4 ≤ Params.default.stackDepth ∧
      (after (runCycles 2 { State.started Params.default [0x3A, 0, 0, 0] 16 with mem := [(3, 7)] })).isSome ∧
      wit.runState = .running ∧ (after (exec (.loadConst 1) wit)).isSome := by decide

/-- A fitting value, one too large, and a token of no form. -/
theorem witness_AssembleOneLine :
    isDigits "8191".toList = true ∧ digitsValue "8191".toList < 2 ^ Opcode.loadConst.width ∧
      2 ^ Opcode.loadConst.width ≤ digitsValue "8192".toList ∧ "+5".toList ≠ [] ∧
      (∀ c ∈ "+5".toList, isBlankChar c = false) ∧ "+5".toList.getLast? ≠ some '\r' ∧
      isDigits "+5".toList = false := by
  refine ⟨by decide, by decide, by decide, by decide, fun c hc => ?_, by decide, by decide⟩
  simp only [String.reduceToList, List.mem_cons, List.not_mem_nil, or_false] at hc
  rcases hc with rfl | rfl <;> decide

/-- The remaining hypothesis of `AssembleOneLine`: `+5` begins with no minus sign. -/
theorem witness_AssembleOneLine_sign (ds : List Char) (h : "+5".toList = '-' :: ds) : isDigits ds = false := by
  simp at h

theorem witness_AssemblyFailsFast :
    (assemble ["LOAD_CONST 1".toList]).error = none ∧ assembleLine "BAD 2".toList = .error .syntaxError := by decide

theorem witness_AssembledProgramNeverMalformed :
    (after (runCycles 2 { State.started Params.default (assembledProgram ["LOAD_CONST 1".toList]) 16 with
      mem := [(3, 7)], stack := [5] })).isSome := by
  decide

end Sys2Proof.Tests
end

section
/-! SUPPORT. The family of the state (spec/10_state): first what a step can do, read both ways, and what it leaves
unchanged; then runs and the host's operations; then the two-run comparisons (another trace buffer, another DATA_W);
then the obligations. -/

namespace Sys2Proof.Machine

-- ---------------------------------------------------------------- the cases of Laws/Exec.lean, read backwards

theorem inRange_eq_false_iff (a : Int) (s : State) : inRange a s = false ↔ ¬ (0 ≤ a ∧ a < s.memSize) := by
  rw [Bool.eq_false_iff, Ne, inRange_iff]

theorem inRange_direct_eq_false {a : Nat} {s : State} (h : s.memSize ≤ a) : inRange (directAddress a) s = false := by
  rw [Bool.eq_false_iff, Ne, inRange_direct]
  omega

theorem exec_read_inRange {s : State} {a : Nat} (range : a < s.memSize) :
    exec (.readFromMemory a) s = push (s.mem.read a) s := by
  rw [exec, execReadFromMemory, inRangeThen_pos ((inRange_direct a s).2 range), directAddress_toNat]

theorem exec_read_outside {s : State} {a : Nat} (range : s.memSize ≤ a) :
    exec (.readFromMemory a) s = .next (raise .outOfRange s.fpc s.cycleWord a s) := by
  rw [exec, execReadFromMemory, inRangeThen_neg (inRange_direct_eq_false range), directAddress]

theorem exec_notEqual_inRange {s : State} {off : Nat} {st : List Value} {v : Value} (top : s.stack = st ++ [v])
    (low : 0 ≤ off + v) (range : off + v < s.memSize) :
    exec (.notEqual off) s =
      push (zextEntry s.params.dataW (notEqualResult (s.mem.read (off + v).toNat) v)) (s.setStack st) := by
  have hr : inRange (offsetAddress off v) (s.setStack st) = true := (inRange_iff _ _).2 ⟨low, range⟩
  rw [exec, execNotEqual, popThen_concat top, inRangeThen_pos hr]
  rfl

/-- The converse of `exec_inv`: with it, a claim about two executions carries each case over to the other state. -/
theorem ExecCase.exec_eq {s t : State} {i : Instr} (h : ExecCase s i t) : exec i s = .next t := by
  cases h with
  | loaded n room => exact push_room room
  | loadOverflow n full => exact push_full full
  | readPushed a range room => rw [exec_read_inRange range, push_room room]
  | readOverflow a range full => rw [exec_read_inRange range, push_full full]
  | readOutside a range => exact exec_read_outside range
  | wrote a st v top range => exact (popThen_concat top).trans (inRangeThen_pos ((inRange_direct a _).2 range))
  | writeUnderflow a empty => exact popThen_empty empty
  | writeOutside a st v top range =>
    exact (popThen_concat top).trans (inRangeThen_neg (inRange_direct_eq_false range))
  | compared off st v top low range room =>
    rw [exec_notEqual_inRange top low range, push_room (s := s.setStack st) room, State.setStack_stack]
    rfl
  | compareOverflow off st v top low range full =>
    rw [exec_notEqual_inRange top low range, push_full (s := s.setStack st) full]
    rfl
  | compareUnderflow off empty => exact popThen_empty empty
  | compareOutside off st v top range =>
    exact (popThen_concat top).trans (inRangeThen_neg ((inRange_eq_false_iff _ _).2 range))

/-- Where a whole word stands at `pc`, the cycle decodes and executes it with `pc` advanced (40_sequencer R104). -/
theorem cycle_wholeWord {s : State} (h4 : s.pc + 4 ≤ s.progLen) :
    cycle s = decodeAndExecute s.pc (fetch32 s.program s.pc) (s.setPc (s.pc + 4)) := by
  rw [cycle, if_neg (by omega), if_neg (by omega)]

theorem retire_next (fpc : Nat) (word : InstrWord) (i : Instr) (t : State) :
    retire fpc word i (.next t) =
      .next (if t.runState = .haltedError then t else t.appendTrace (traceRecord fpc word i t)) := by
  rw [retire]
  split <;> rfl

/-- The cycle of a valid word: its instruction, and the trace record unless it raised (40_sequencer R106, R108). -/
theorem cycle_of_exec {s t : State} {i : Instr} (h4 : s.pc + 4 ≤ s.progLen)
    (hd : decodeWord (fetch32 s.program s.pc) = .ok i) (he : exec i (s.setPc (s.pc + 4)) = .next t) :
    cycle s = .next (if t.runState = .haltedError then t else
      t.appendTrace (traceRecord s.pc (fetch32 s.program s.pc) i t)) := by
  rw [cycle_wholeWord h4, decodeAndExecute, hd]
  simp only [he, retire_next]

theorem CycleCase.cycle_eq {s t : State} (h : CycleCase s t) : cycle s = .next t := by
  cases h with
  | exhausted h => rw [cycle, if_pos h]
  | partialWord h h4 => rw [cycle, if_neg (by omega), if_pos (by omega)]
  | invalid h4 op hd => rw [cycle_wholeWord h4, decodeAndExecute, hd]
  | raised h4 i t hd he hr => rw [cycle_of_exec h4 hd he.exec_eq, if_pos hr]
  | completed h4 i t hd he hr => rw [cycle_of_exec h4 hd he.exec_eq, if_neg hr]

theorem CycleCase.step_eq {s t : State} (hr : s.runState = .running) (h : CycleCase s t) : step s = .next t := by
  rw [step_running hr, h.cycle_eq]

-- ---------------------------------------------------------------- what an instruction and a cycle leave unchanged

theorem ExecCase.inputs_eq {s t : State} {i : Instr} (h : ExecCase s i t) :
    t.program = s.program ∧ t.memSize = s.memSize ∧ t.params = s.params := by
  cases h <;> exact ⟨rfl, rfl, rfl⟩

theorem ExecCase.program_eq {s t : State} {i : Instr} (h : ExecCase s i t) : t.program = s.program := by
  obtain ⟨hp, -, -⟩ := h.inputs_eq
  exact hp

theorem ExecCase.pc_eq {s t : State} {i : Instr} (h : ExecCase s i t) : t.pc = s.pc := by cases h <;> rfl

theorem ExecCase.trace_eq {s t : State} {i : Instr} (h : ExecCase s i t) : t.trace = s.trace := by cases h <;> rfl

/-- An instruction leaves the run state and the error code, or it raises (60_exceptions R165). -/
theorem ExecCase.kept_or_raised {s t : State} {i : Instr} (h : ExecCase s i t) :
    (t.runState = s.runState ∧ t.errCode = s.errCode) ∨ (t.runState = .haltedError ∧ t.errCode ≠ .noError) := by
  cases h with
  | loaded | readPushed | wrote | compared => exact .inl ⟨rfl, rfl⟩
  | loadOverflow | readOverflow | readOutside | writeUnderflow | writeOutside | compareOverflow | compareUnderflow
  | compareOutside => exact .inr ⟨rfl, by simp⟩

theorem CycleCase.inputs_eq {s t : State} (h : CycleCase s t) :
    t.program = s.program ∧ t.memSize = s.memSize ∧ t.params = s.params := by
  cases h with
  | exhausted | partialWord | invalid => exact ⟨rfl, rfl, rfl⟩
  | raised h4 i t hd he hr => exact he.inputs_eq
  | completed h4 i t hd he hr => exact he.inputs_eq

/-- Where a cycle leaves `pc` and the trace: both stay, `pc` alone moves past a whole word, or both record one. -/
theorem CycleCase.pc_trace_cases {s t : State} (h : CycleCase s t) :
    (t.pc = s.pc ∧ t.trace = s.trace) ∨
    (s.pc + 4 ≤ s.progLen ∧ t.pc = s.pc + 4 ∧ (t.trace = s.trace ∨ ∃ r, t.trace = s.trace ++ [r])) := by
  cases h with
  | exhausted | partialWord => exact .inl ⟨rfl, rfl⟩
  | invalid h4 => exact .inr ⟨h4, rfl, .inl rfl⟩
  | raised h4 i t hd he hr => exact .inr ⟨h4, he.pc_eq, .inl he.trace_eq⟩
  | completed h4 i t hd he hr =>
    exact .inr ⟨h4, he.pc_eq, .inr ⟨_, congrArg (· ++ [_]) he.trace_eq⟩⟩

/-- Where a cycle of a RUNNING state leaves the run state (10_state R30). -/
theorem CycleCase.runState_cases {s t : State} (h : CycleCase s t) (hs : s.runState = .running) :
    (s.progLen ≤ s.pc ∧ t.runState = .haltedSuccess ∧ t.errCode = s.errCode) ∨
    (s.pc < s.progLen ∧ t.runState = .haltedError ∧ t.errCode ≠ .noError) ∨
    (s.pc < s.progLen ∧ t.runState = .running ∧ t.errCode = s.errCode) := by
  cases h with
  | exhausted h => exact .inl ⟨h, rfl, rfl⟩
  | partialWord h => exact .inr (.inl ⟨h, rfl, by simp⟩)
  | invalid h4 => exact .inr (.inl ⟨by omega, rfl, by simp⟩)
  | raised h4 i t hd he hr =>
    rcases he.kept_or_raised with ⟨hk, -⟩ | ⟨-, hc⟩
    · simp [hr, hs] at hk
    · exact .inr (.inl ⟨by omega, hr, hc⟩)
  | completed h4 i t hd he hr =>
    rcases he.kept_or_raised with ⟨hk, hc⟩ | ⟨hk, -⟩
    · exact .inr (.inr ⟨by omega, hk.trans hs, hc⟩)
    · exact absurd hk hr

theorem step_inputs_eq {s t : State} (h : step s = .next t) :
    t.program = s.program ∧ t.memSize = s.memSize ∧ t.params = s.params := by
  rcases step_inv h with ⟨-, rfl⟩ | ⟨-, hc⟩
  · exact ⟨rfl, rfl, rfl⟩
  · exact hc.inputs_eq

theorem step_params_eq {s t : State} (h : step s = .next t) : t.params = s.params := by
  obtain ⟨-, -, hp⟩ := step_inputs_eq h
  exact hp

theorem step_progLen_eq {s t : State} (h : step s = .next t) : t.progLen = s.progLen := by
  obtain ⟨hp, -, -⟩ := step_inputs_eq h
  rw [State.progLen, hp, State.progLen]

theorem step_pc_trace_cases {s t : State} (h : step s = .next t) :
    (t.pc = s.pc ∧ t.trace = s.trace) ∨
    (s.pc + 4 ≤ s.progLen ∧ t.pc = s.pc + 4 ∧ (t.trace = s.trace ∨ ∃ r, t.trace = s.trace ++ [r])) := by
  rcases step_inv h with ⟨-, rfl⟩ | ⟨-, hc⟩
  · exact .inl ⟨rfl, rfl⟩
  · exact hc.pc_trace_cases

-- ---------------------------------------------------------------- runs

theorem runCycles_inputs_eq {k : Nat} {s t : State} (h : runCycles k s = .next t) :
    t.program = s.program ∧ t.memSize = s.memSize ∧ t.params = s.params := by
  refine runCycles_keeps (P := fun u => u.program = s.program ∧ u.memSize = s.memSize ∧ u.params = s.params)
    (fun u v huv hu => ?_) h ⟨rfl, rfl, rfl⟩
  obtain ⟨hp, hm, hq⟩ := step_inputs_eq huv
  rwa [hp, hm, hq]

theorem runCycles_program_eq {k : Nat} {s t : State} (h : runCycles k s = .next t) : t.program = s.program := by
  obtain ⟨hp, -, -⟩ := runCycles_inputs_eq h
  exact hp

/-- No number of cycles faults or is refused: every step answers a next state. -/
theorem runCycles_total (k : Nat) (s : State) : ∃ t, runCycles k s = .next t := by
  induction k generalizing s with
  | zero => exact ⟨s, rfl⟩
  | succ k ih =>
    obtain ⟨u, hu, -⟩ := step_case s
    rw [runCycles_succ hu]
    exact ih u

/-- Outside RUNNING no number of cycles changes the state (10_state R31, 40_sequencer R100). -/
theorem runCycles_idle {s : State} (h : s.runState ≠ .running) (k : Nat) : runCycles k s = .next s := by
  induction k with
  | zero => rfl
  | succ k ih => rw [runCycles_succ (step_idle h), ih]

theorem RunState.ne_of_halted {r : RunState} (h : r.halted = true) : r ≠ .running ∧ r ≠ .ready := by
  cases r with
  | ready | running => cases h
  | haltedSuccess | haltedError => decide

-- ---------------------------------------------------------------- the host's operations

theorem hostPreloadMem_refused {s : State} (h : s.runState ≠ .ready) (a : Int) (v : BitVec s.params.dataW) :
    hostPreloadMem s a v = .refused .notReady := by
  rw [hostPreloadMem, if_pos h]

theorem hostPreloadPush_refused {s : State} (h : s.runState ≠ .ready) (v : BitVec s.params.dataW) :
    hostPreloadPush s v = .refused .notReady := by
  rw [hostPreloadPush, if_pos h]

theorem hostStart_refused {s : State} (h : s.runState ≠ .ready) : hostStart s = .refused .notReady := by
  rw [hostStart, if_neg h]

/-- Refusal and effect of a memory preload in READY (10_state R39). -/
theorem hostPreloadMem_ready {s : State} (h : s.runState = .ready) (a : Int) (v : BitVec s.params.dataW) :
    hostPreloadMem s a v =
      if inRange a s then .next (s.setMem (s.mem.write a.toNat v.toInt)) else .refused .cellOutOfRange := by
  rw [hostPreloadMem, if_neg (not_not.2 h)]

theorem hostPreloadPush_full {s : State} (h : s.runState = .ready) (full : s.sp = s.params.stackDepth)
    (v : BitVec s.params.dataW) : hostPreloadPush s v = .refused .stackFull := by
  rw [hostPreloadPush, if_neg (not_not.2 h), if_pos full]

theorem hostPreloadPush_room {s : State} (h : s.runState = .ready) (room : s.sp ≠ s.params.stackDepth)
    (v : BitVec s.params.dataW) : hostPreloadPush s v = .next (s.setStack (s.stack ++ [v.toInt])) := by
  rw [hostPreloadPush, if_neg (not_not.2 h), if_neg room]

theorem hostReset_accepted {s : State} {P : List Byte} (h : P.length < 2 ^ s.params.pcW) (n : Nat) :
    hostReset P n s = .next (State.resetWith s.params P n) := by
  rw [hostReset, if_neg (by omega), if_pos h, Int.toNat_natCast]

-- ---------------------------------------------------------------- another trace buffer (10_state R34)

/-- No condition and no effect of an instruction names the trace: each case holds again with another buffer. -/
theorem ExecCase.withTrace {s t : State} {i : Instr} (h : ExecCase s i t) (T : List TraceRec) :
    ExecCase (s.withTrace T) i (t.withTrace T) := by
  cases h with
  | loaded n room => exact .loaded n room
  | loadOverflow n full => exact .loadOverflow n full
  | readPushed a range room => exact .readPushed a range room
  | readOverflow a range full => exact .readOverflow a range full
  | readOutside a range => exact .readOutside a range
  | wrote a st v top range => exact .wrote a st v top range
  | writeUnderflow a empty => exact .writeUnderflow a empty
  | writeOutside a st v top range => exact .writeOutside a st v top range
  | compared off st v top low range room => exact .compared off st v top low range room
  | compareOverflow off st v top low range full => exact .compareOverflow off st v top low range full
  | compareUnderflow off empty => exact .compareUnderflow off empty
  | compareOutside off st v top range => exact .compareOutside off st v top range

/-- With another trace buffer a cycle does the same and appends the same records, at most one. -/
theorem CycleCase.withTrace {s t : State} (h : CycleCase s t) (T : List TraceRec) :
    ∃ new, new.length ≤ 1 ∧ t.trace = s.trace ++ new ∧ CycleCase (s.withTrace T) (t.withTrace (T ++ new)) := by
  have silent {u : State} (hu : u.trace = s.trace) (hc : CycleCase (s.withTrace T) (u.withTrace T)) :
      ∃ new, new.length ≤ 1 ∧ u.trace = s.trace ++ new ∧ CycleCase (s.withTrace T) (u.withTrace (T ++ new)) :=
    ⟨[], Nat.zero_le 1, by rw [hu, List.append_nil], by rwa [List.append_nil]⟩
  cases h with
  | exhausted h => exact silent rfl (.exhausted h)
  | partialWord h h4 => exact silent rfl (.partialWord h h4)
  | invalid h4 op hd => exact silent rfl (.invalid (s := s.withTrace T) h4 op hd)
  | raised h4 i t hd he hr =>
    exact silent he.trace_eq (.raised (s := s.withTrace T) h4 i _ hd (he.withTrace T) hr)
  | completed h4 i t hd he hr =>
    exact ⟨[traceRecord s.pc (fetch32 s.program s.pc) i t], by simp, congrArg (· ++ [_]) he.trace_eq,
      CycleCase.completed (s := s.withTrace T) h4 i _ hd (he.withTrace T) hr⟩

/-- The records so far are no more than the words passed, nor than the whole words of the program. -/
def State.TraceCountFits (s : State) : Prop := 4 * s.trace.length ≤ s.pc ∧ 4 * s.trace.length ≤ s.progLen

theorem step_keeps_traceCountFits (s t : State) (h : step s = .next t) (hs : s.TraceCountFits) :
    t.TraceCountFits := by
  have hlen := step_progLen_eq h
  obtain ⟨hpc, hprog⟩ := hs
  unfold State.TraceCountFits
  rcases step_pc_trace_cases h with ⟨hp, ht⟩ | ⟨h4, hp, ht | ⟨r, ht⟩⟩ <;>
    simp only [hlen, hp, ht, List.length_append, List.length_singleton] <;> omega

-- ---------------------------------------------------------------- values in [0, 8191] and another DATA_W (10_state R43)

/-- The comparison bit is the same entry at every legal DATA_W. -/
theorem zextEntry_notEqualResult {w : Nat} (hw : 14 ≤ w) (m v : Value) :
    zextEntry w (notEqualResult m v) = notEqualResult m v :=
  zextEntry_eq hw (Nat.lt_trans (notEqualResult_lt m v) (by decide))

/-- The literal of a well-formed LOAD_CONST is the same entry at every legal DATA_W. -/
theorem zextEntry_literal {w n : Nat} (hw : 14 ≤ w) (hwf : (Instr.loadConst n).wf = true) : zextEntry w n = n :=
  zextEntry_eq hw ((Instr.wf_iff _).1 hwf)

theorem ExecCase.mem_wf {s t : State} {i : Instr} (h : ExecCase s i t) (hs : s.mem.wf = true) : t.mem.wf = true := by
  cases h with
  | wrote a st v top range => exact Memory.write_wf a v hs
  | loaded | loadOverflow | readPushed | readOverflow | readOutside | writeUnderflow | writeOutside | compared
  | compareOverflow | compareUnderflow | compareOutside => exact hs

theorem step_keeps_mem_wf {s t : State} (h : step s = .next t) (hs : s.mem.wf = true) : t.mem.wf = true := by
  rcases step_inv h with ⟨-, rfl⟩ | ⟨-, hc⟩
  · exact hs
  · cases hc with
    | exhausted | partialWord | invalid => exact hs
    | raised h4 i t hd he hr => exact he.mem_wf hs
    | completed h4 i t hd he hr => exact he.mem_wf hs

theorem State.SmallValues.push {s : State} (h : s.SmallValues) {v : Value} (hv : 0 ≤ v ∧ v ≤ 8191)
    {st : List Value} (hst : ∀ u ∈ st, u ∈ s.stack) : (s.setStack (st ++ [v])).SmallValues where
  stack_small u hu := by
    rcases List.mem_append.1 hu with hu | hu
    · exact h.stack_small u (hst u hu)
    · rwa [List.mem_singleton.1 hu]
  mem_small := h.mem_small

theorem State.SmallValues.pop {s : State} (h : s.SmallValues) {st : List Value} (hst : ∀ u ∈ st, u ∈ s.stack) :
    (s.setStack st).SmallValues where
  stack_small u hu := h.stack_small u (hst u hu)
  mem_small := h.mem_small

theorem State.SmallValues.store {s : State} (h : s.SmallValues) (hwf : s.mem.wf = true) (a : Nat) {v : Value}
    (hv : 0 ≤ v ∧ v ≤ 8191) : (s.setMem (s.mem.write a v)).SmallValues where
  stack_small := h.stack_small
  mem_small x := by
    rw [State.setMem_mem, Memory.read_write a v hwf]
    split
    · exact hv
    · exact h.mem_small x

/-- The range is one of entries and cells only. -/
theorem State.SmallValues.congr {s t : State} (h : s.SmallValues) (hst : t.stack = s.stack) (hm : t.mem = s.mem) :
    t.SmallValues where
  stack_small := hst ▸ h.stack_small
  mem_small := hm ▸ h.mem_small

theorem natCast_small {n : Nat} (h : n < 2 ^ 13) : (0 : Int) ≤ n ∧ (n : Int) ≤ 8191 := by omega

/-- Literals, cells, popped values and comparison bits are all in the range, so every instruction keeps it. -/
theorem ExecCase.smallValues {s t : State} {i : Instr} (h : ExecCase s i t) (hw : 14 ≤ s.params.dataW)
    (hwf : s.mem.wf = true) (hi : i.wf = true) (hs : s.SmallValues) : t.SmallValues := by
  have below {st : List Value} {v : Value} (top : s.stack = st ++ [v]) : ∀ u ∈ st, u ∈ s.stack := by simp_all
  cases h with
  | loaded n room =>
    rw [zextEntry_literal hw hi]
    exact hs.push (natCast_small ((Instr.wf_iff _).1 hi)) fun u hu => hu
  | readPushed a range room => exact hs.push (hs.mem_small a) fun u hu => hu
  | wrote a st v top range => exact (hs.pop (below top)).store hwf a (hs.stack_small v (by simp [top]))
  | compared off st v top low range room =>
    rw [zextEntry_notEqualResult hw]
    exact hs.push (natCast_small (Nat.lt_trans (notEqualResult_lt _ v) (by decide))) (below top)
  | loadOverflow | readOverflow | readOutside | writeUnderflow | compareUnderflow => exact hs.congr rfl rfl
  | writeOutside _ _ _ top | compareOverflow _ _ _ top | compareOutside _ _ _ top =>
    exact (hs.pop (below top)).congr rfl rfl

theorem step_keeps_smallValues {s t : State} (hw : 14 ≤ s.params.dataW) (hwf : s.mem.wf = true) (hs : s.SmallValues)
    (h : step s = .next t) : t.SmallValues := by
  rcases step_inv h with ⟨-, rfl⟩ | ⟨-, hc⟩
  · exact hs
  · have hs' : (s.setPc (s.pc + 4)).SmallValues := hs.congr rfl rfl
    cases hc with
    | exhausted | partialWord | invalid => exact hs.congr rfl rfl
    | raised h4 i t hd he hr => exact he.smallValues hw hwf (decodeWord_wf hd) hs'
    | completed h4 i t hd he hr => exact (he.smallValues hw hwf (decodeWord_wf hd) hs').congr rfl rfl

/-- The conditions under which a step keeps the range, together: they hold at the start of a run with no preload. -/
structure State.SmallRun (s : State) : Prop where
  dataW_le : 14 ≤ s.params.dataW
  mem_wf : s.mem.wf = true
  small : s.SmallValues

theorem State.started_smallRun {p : Params} (hp : 14 ≤ p.dataW) (P : List Byte) (n : Nat) :
    (State.started p P n).SmallRun where
  dataW_le := hp
  mem_wf := rfl
  small := ⟨by simp, by simp⟩

theorem step_keeps_smallRun (s t : State) (h : step s = .next t) (hs : s.SmallRun) : t.SmallRun where
  dataW_le := by
    rw [step_params_eq h]
    exact hs.dataW_le
  mem_wf := step_keeps_mem_wf h hs.mem_wf
  small := step_keeps_smallValues hs.dataW_le hs.mem_wf hs.small h

/-- Only the two pushed extensions read DATA_W, and at 14 bits or more they are the number itself. -/
theorem ExecCase.withDataW {s t : State} {i : Instr} (h : ExecCase s i t) (hi : i.wf = true)
    (hs : 14 ≤ s.params.dataW) {w : Nat} (hw : 14 ≤ w) : ExecCase (s.withDataW w) i (t.withDataW w) := by
  cases h with
  | loaded n room =>
    rw [(zextEntry_literal hs hi).trans (zextEntry_literal hw hi).symm]
    exact .loaded (s := s.withDataW w) n room
  | compared off st v top low range room =>
    rw [(zextEntry_notEqualResult hs _ v).trans (zextEntry_notEqualResult hw _ v).symm]
    exact .compared (s := s.withDataW w) off st v top low range room
  | loadOverflow n full => exact .loadOverflow n full
  | readPushed a range room => exact .readPushed a range room
  | readOverflow a range full => exact .readOverflow a range full
  | readOutside a range => exact .readOutside a range
  | wrote a st v top range => exact .wrote a st v top range
  | writeUnderflow a empty => exact .writeUnderflow a empty
  | writeOutside a st v top range => exact .writeOutside a st v top range
  | compareOverflow off st v top low range full => exact .compareOverflow off st v top low range full
  | compareUnderflow off empty => exact .compareUnderflow off empty
  | compareOutside off st v top range => exact .compareOutside off st v top range

theorem CycleCase.withDataW {s t : State} (h : CycleCase s t) (hs : 14 ≤ s.params.dataW) {w : Nat} (hw : 14 ≤ w) :
    CycleCase (s.withDataW w) (t.withDataW w) := by
  cases h with
  | exhausted h => exact .exhausted h
  | partialWord h h4 => exact .partialWord h h4
  | invalid h4 op hd => exact .invalid (s := s.withDataW w) h4 op hd
  | raised h4 i t hd he hr => exact .raised (s := s.withDataW w) h4 i _ hd (he.withDataW (decodeWord_wf hd) hs hw) hr
  | completed h4 i t hd he hr =>
    exact .completed (s := s.withDataW w) h4 i _ hd (he.withDataW (decodeWord_wf hd) hs hw) hr

theorem step_withDataW {s t : State} (h : step s = .next t) (hs : 14 ≤ s.params.dataW) {w : Nat} (hw : 14 ≤ w) :
    step (s.withDataW w) = .next (t.withDataW w) := by
  rcases step_inv h with ⟨hr, rfl⟩ | ⟨hr, hc⟩
  · exact step_idle hr
  · exact (hc.withDataW hs hw).step_eq hr

/-- The simulation: a run on a machine of another DATA_W >= 14 goes through the same states but for that parameter. -/
theorem runCycles_withDataW {k : Nat} {s t : State} (h : runCycles k s = .next t) (hs : 14 ≤ s.params.dataW)
    {w : Nat} (hw : 14 ≤ w) : runCycles k (s.withDataW w) = .next (t.withDataW w) := by
  induction k generalizing s with
  | zero =>
    cases h
    rfl
  | succ k ih =>
    obtain ⟨u, hu, -⟩ := step_case s
    rw [runCycles_succ hu] at h
    rw [runCycles_succ (step_withDataW hu hs hw)]
    exact ih h (by rwa [step_params_eq hu])

-- ---------------------------------------------------------------- the decoded instruction and the stack engine

/-- What a byte sequence that decodes looks like: four bytes of a valid word, and the rest (30_encoding R79). -/
theorem decodeBytes_eq_ok {bytes rest : List Byte} {i : Instr} (h : decodeBytes bytes = .ok (i, rest)) :
    ∃ b0 b1 b2 b3, bytes = b0 :: b1 :: b2 :: b3 :: rest ∧ decodeWord (wordOfBytes b0 b1 b2 b3) = .ok i := by
  rcases bytes with _ | ⟨b0, _ | ⟨b1, _ | ⟨b2, _ | ⟨b3, tail⟩⟩⟩⟩
  iterate 4 simp [decodeBytes] at h
  cases hd : decodeWord (wordOfBytes b0 b1 b2 b3) with
  | error op => simp [decodeBytes, hd] at h
  | ok j =>
    simp only [decodeBytes, hd, Except.ok.injEq, Prod.mk.injEq] at h
    obtain ⟨rfl, rfl⟩ := h
    exact ⟨b0, b1, b2, b3, rfl, hd⟩

/-- Bytes at an offset that decode are a whole word of the program there, and the fetched word decodes to the same. -/
theorem fetch32_of_decodeBytes {program rest : List Byte} {a : Nat} {i : Instr}
    (h : decodeBytes (program.drop a) = .ok (i, rest)) :
    a + 4 ≤ program.length ∧ decodeWord (fetch32 program a) = .ok i := by
  obtain ⟨b0, b1, b2, b3, hb, hd⟩ := decodeBytes_eq_ok h
  have hlen := congrArg List.length hb
  simp only [List.length_drop, List.length_cons] at hlen
  have hf : fetch32 program a = wordOfBytes b0 b1 b2 b3 := fetch32_eq (by simp [progRead, hb])
  exact ⟨by omega, hf ▸ hd⟩

theorem opcodeField_of_decodeWord {w : InstrWord} {i : Instr} (h : decodeWord w = .ok i) :
    opcodeField w = i.opcode.bits := by
  obtain ⟨o, ho, rfl⟩ := decodeWord_eq_ok.1 h
  rw [ho, Opcode.instr_opcode]

/-- A Pop takes `S[sp-1]` and lowers `sp` by one (10_state R28). -/
theorem popThen_top {rest : Value → State → Result} {s : State} {u : Value} (h : s.stack[s.sp - 1]? = some u) :
    popThen rest s = rest u (s.setStack (s.stack.take (s.sp - 1))) := by
  have hlast : s.stack.getLast? = some u := by rw [List.getLast?_eq_getElem?]; exact h
  rw [popThen, hlast, List.dropLast_eq_take]
  rfl

-- ---------------------------------------------------------------- the obligations, by tier

/-- Settles O5: READY, the range and the room are the branches of the two preloads, and `Memory.read_write` says what the
written memory reads as. -/
theorem preloadOnlyInReady : Obligations.PreloadOnlyInReady := by
  unfold Obligations.PreloadOnlyInReady
  intro s a v hwf
  refine ⟨fun h => ⟨hostPreloadMem_refused h a v, hostPreloadPush_refused h v⟩, fun h ha => ?_,
    fun h ha ha' => ⟨s.mem.write a.toNat v.toInt, ?_, Memory.write_wf _ _ hwf, fun x => ?_⟩,
    fun h hf => hostPreloadPush_full h hf v, fun h hl => hostPreloadPush_room h (Nat.ne_of_lt hl) v⟩
  · rw [hostPreloadMem_ready h, (inRange_eq_false_iff a s).2 ha]
    rfl
  · rw [hostPreloadMem_ready h, if_pos ((inRange_iff a s).2 ⟨ha, ha'⟩)]
    rfl
  · rw [Memory.read_write _ _ hwf]
    exact if_congr (by omega) rfl rfl

/-- Settles O10: a halted state is neither RUNNING nor READY, so cycles idle and the host's moves are refused; only a
reset is accepted. -/
theorem haltedIsTerminal : Obligations.HaltedIsTerminal := by
  unfold Obligations.HaltedIsTerminal
  intro s h
  obtain ⟨hrun, hready⟩ := RunState.ne_of_halted h
  exact ⟨runCycles_idle hrun, hostStart_refused hready,
    fun a v => ⟨hostPreloadMem_refused hready a v, hostPreloadPush_refused hready v⟩,
    fun P n hP => ⟨_, hostReset_accepted hP n, rfl⟩⟩

/-- Settles O11: the three outcomes of a cycle in RUNNING (`CycleCase.runState_cases`) exclude one another. -/
theorem runStateTransitions : Obligations.RunStateTransitions := by
  unfold Obligations.RunStateTransitions
  refine ⟨⟨rfl, rfl, rfl, rfl⟩, fun s h => ?_, fun s t h => ?_, fun s t h => ?_⟩
  · rw [hostStart, if_pos h]
    rfl
  · rw [hostStart_refused h]
    simp
  · rcases step_inv h with ⟨hs, rfl⟩ | ⟨hs, hc⟩
    · exact ⟨fun _ => rfl, fun hs' => absurd hs' hs⟩
    · refine ⟨fun hs' => absurd hs hs', fun _ => ?_⟩
      rcases hc.runState_cases hs with ⟨hpc, hr, he⟩ | ⟨hpc, hr, he⟩ | ⟨hpc, hr, he⟩ <;> simp [hr, he, hpc]

/-- Settles O40: `pc` stays, or moves by 4 past a whole word of the unchanged program. -/
theorem pcStaysAlignedInProgram : Obligations.PcStaysAlignedInProgram := by
  unfold Obligations.PcStaysAlignedInProgram
  refine ⟨fun p P n => ⟨rfl, Nat.zero_le _⟩, fun s t hal hle h => ?_⟩
  rw [step_progLen_eq h, step_params_eq h]
  obtain ⟨hal', hle'⟩ : t.pc % 4 = 0 ∧ t.pc ≤ s.progLen := by
    rcases step_pc_trace_cases h with ⟨hp, -⟩ | ⟨h4, hp, -⟩ <;> omega
  exact ⟨hal', hle', fun hw => Nat.lt_of_le_of_lt hle' hw⟩

/-- Settles O42: no step writes the program, MEM_SIZE or the parameters. -/
theorem programImmutable : Obligations.ProgramImmutable := by
  unfold Obligations.ProgramImmutable
  refine ⟨fun s t k h => runCycles_inputs_eq h, fun p P n k t h a => ?_⟩
  rw [runCycles_program_eq h, State.started_program]

/-- Settles O45: each case of a cycle holds again with the other buffer, and every record passes a whole word. -/
theorem traceNeverRead : Obligations.TraceNeverRead := by
  unfold Obligations.TraceNeverRead
  refine ⟨fun s T => ?_, fun p P n k m st t => ⟨rfl, fun h => ?_⟩⟩
  · obtain ⟨t, ht, ⟨hs, rfl⟩ | ⟨hs, hc⟩⟩ := step_case s
    · refine ⟨t, [], by rw [ht, List.append_nil], ?_, Nat.zero_le 1⟩
      rw [List.append_nil]
      exact step_idle hs
    · obtain ⟨new, hnew, htr, hc'⟩ := hc.withTrace T
      exact ⟨t, new, by rw [ht, ← htr], hc'.step_eq hs, hnew⟩
  · obtain ⟨-, hfit⟩ := runCycles_keeps step_keeps_traceCountFits h ⟨Nat.zero_le _, Nat.zero_le _⟩
    rw [State.progLen, runCycles_program_eq h, State.started_program] at hfit
    omega

/-- Settles O41: `SmallRun` holds along the run, and the run on the other machine is simulated step by step. -/
theorem noPreloadRunIgnoresDataW : Obligations.NoPreloadRunIgnoresDataW := by
  unfold Obligations.NoPreloadRunIgnoresDataW
  intro p P n k hp
  obtain ⟨t, ht⟩ := runCycles_total k (State.started p P n)
  have hsmall : t.SmallValues := (runCycles_keeps step_keeps_smallRun ht (State.started_smallRun hp P n)).small
  refine ⟨t, ht, hsmall, fun off v hv => ?_, fun w hw => runCycles_withDataW ht hp hw⟩
  exact Int.add_nonneg (Int.natCast_nonneg off) (hsmall.stack_small v hv).1

/-- Settles O12: the bytes at `pc` are a whole word of the program, and `cycle_of_exec` gives the step. -/
theorem stepRunsDecodedInstruction : Obligations.StepRunsDecodedInstruction := by
  unfold Obligations.StepRunsDecodedInstruction
  intro s i rest hs h
  obtain ⟨h4, hd⟩ := fetch32_of_decodeBytes h
  obtain ⟨t, ht, hc⟩ := exec_case i (s.setPc (s.pc + 4))
  refine ⟨decodeWord_wf hd, t, ht, hc.trace_eq, ?_⟩
  rw [step_running hs, cycle_of_exec h4 hd ht, State.appendTrace, traceRecord, hc.program_eq,
    opcodeField_of_decodeWord hd]
  rfl

/-- Settles O24: the entry pushed on `S` is at `S[sp]`, over the entries as they were, and is the one popped. -/
theorem pushAndPop : Obligations.PushAndPop := by
  unfold Obligations.PushAndPop
  intro s v rest
  refine ⟨push_full, fun h => ⟨_, push_room h, ?_, ?_, fun i hi => ?_, ?_⟩,
    fun h => popThen_empty (List.length_eq_zero_iff.1 h), fun u => popThen_top⟩
  · simp [State.sp]
  · simp [State.sp]
  · exact List.getElem?_append_left hi
  · exact popThen_concat (s := s.setStack (s.stack ++ [v])) rfl

end Sys2Proof.Machine
end

section
/-! SUPPORT. The family of the memory (spec/20_memory): the fetched word as arithmetic on the program's bytes. -/

namespace Sys2Proof.Machine

/-- The bits of the later byte stand above those of the earlier ones: concatenation adds. -/
theorem toNat_append_eq_add {m n : Nat} (x : BitVec m) (y : BitVec n) :
    (x ++ y).toNat = 2 ^ n * x.toNat + y.toNat := by
  rw [BitVec.toNat_append, ← Nat.shiftLeft_add_eq_or_of_lt y.isLt, Nat.shiftLeft_eq, Nat.mul_comm]

/-- Little-endian assembly as a number (20_memory R52). -/
theorem wordOfBytes_toNat (b0 b1 b2 b3 : Byte) :
    (wordOfBytes b0 b1 b2 b3).toNat = b0.toNat + 2 ^ 8 * b1.toNat + 2 ^ 16 * b2.toNat + 2 ^ 24 * b3.toNat := by
  rw [wordOfBytes, toNat_append_eq_add, toNat_append_eq_add, toNat_append_eq_add]
  omega

/-- A read of the program takes the byte at its offset first (20_memory R51). -/
theorem progRead_succ {program : List Byte} {a : Nat} {b : Byte} (h : program[a]? = some b) (n : Nat) :
    progRead program a (n + 1) = b :: progRead program (a + 1) n := by
  obtain ⟨ha, rfl⟩ := List.getElem?_eq_some_iff.1 h
  rw [progRead, List.drop_eq_getElem_cons ha, List.take_succ_cons, progRead]

/-- Settles O36: the four bytes are what `ProgRead` reads, and `wordOfBytes_toNat` is their word's number. -/
theorem fetchLittleEndian : Obligations.FetchLittleEndian := by
  unfold Obligations.FetchLittleEndian
  intro P addr b0 b1 b2 b3 h0 h1 h2 h3
  have hread : progRead P addr 4 = [b0, b1, b2, b3] := by
    rw [progRead_succ h0, progRead_succ h1, progRead_succ h2, progRead_succ h3, progRead, List.take_zero]
  rw [fetch32_eq hread, wordOfBytes_toNat]

end Sys2Proof.Machine
end

section
/-! SUPPORT. The family of the encoding (spec/30_encoding), first part: the decoder, the encoder and the canonical words as
arithmetic on the word's number, and the counting of words by their opcode field. -/

namespace Sys2Proof

-- ---------------------------------------------------------------- the decoder on the word's number

theorem Opcode.toNat_bits (o : Opcode) : o.bits.toNat = o.code := Nat.mod_eq_of_lt o.code_lt

/-- The decoder as arithmetic: the opcode is the word modulo 32, the operand the next W bits (30_encoding R75). -/
theorem decodeWord_eq_ok_iff {w : InstrWord} {i : Instr} :
    decodeWord w = .ok i ↔ w.toNat % 32 = i.opcode.code ∧ w.toNat / 32 % 2 ^ i.opcode.width = i.operand := by
  rw [decodeWord_eq_ok]
  constructor
  · rintro ⟨o, ho, rfl⟩
    rw [Opcode.instr_opcode, Opcode.instr_operand, ← opcodeField_toNat, ho, Opcode.toNat_bits]
    exact ⟨rfl, rfl⟩
  · rintro ⟨hc, hn⟩
    refine ⟨i.opcode, BitVec.eq_of_toNat_eq ?_, ?_⟩
    · rw [opcodeField_toNat, hc, Opcode.toNat_bits]
    · rw [operandField, show 2 ^ 5 = 32 from rfl, hn, Instr.opcode_instr]

theorem Opcode.ofBits_eq_none_iff_toNat {b : BitVec 5} :
    Opcode.ofBits b = none ↔ b.toNat ∉ ([17, 18, 23, 26] : List Nat) := by
  revert b
  decide

/-- INVALID(op) names the opcode field, and answers exactly the values that no opcode has (30_encoding R72, R75). -/
theorem decodeWord_eq_error_iff {w : InstrWord} {op : BitVec 5} :
    decodeWord w = .error op ↔ op.toNat = w.toNat % 32 ∧ w.toNat % 32 ∉ ([17, 18, 23, 26] : List Nat) := by
  rw [← opcodeField_toNat, BitVec.toNat_inj, ← Opcode.ofBits_eq_none_iff_toNat, decodeWord]
  cases Opcode.ofBits (opcodeField w) with
  | none => simp [eq_comm]
  | some o => simp

theorem exists_decodeWord_eq_error_iff {w : InstrWord} :
    (∃ op, decodeWord w = .error op) ↔ w.toNat % 32 ∉ ([17, 18, 23, 26] : List Nat) :=
  ⟨fun ⟨_, h⟩ => (decodeWord_eq_error_iff.1 h).2,
    fun h => ⟨opcodeField w, decodeWord_eq_error_iff.2 ⟨opcodeField_toNat w, h⟩⟩⟩

/-- The decoder is total: a word is valid or INVALID, never both. -/
theorem exists_decodeWord_eq_ok_iff {w : InstrWord} :
    (∃ i, decodeWord w = .ok i) ↔ w.toNat % 32 ∈ ([17, 18, 23, 26] : List Nat) := by
  rw [← not_iff_not, ← exists_decodeWord_eq_error_iff]
  cases decodeWord w with
  | ok i => simp
  | error op => simp

/-- Decoding the canonical word of a well-formed instruction gives it back (30_encoding R82). -/
theorem decodeWord_encode {i : Instr} (h : i.wf = true) : decodeWord (encode i) = .ok i := by
  have hc := i.opcode.code_lt
  have hn := (Instr.wf_iff i).1 h
  rw [decodeWord_eq_ok_iff, encode_toNat h]
  refine ⟨by omega, ?_⟩
  rw [show (i.opcode.code + i.operand * 32) / 32 = i.operand by omega, Nat.mod_eq_of_lt hn]

/-- The number of operands of the opcode with field value `c`, 0 where there is none (30_encoding R71). -/
def operandCount (c : Nat) : Nat :=
  match Opcode.ofBits (BitVec.ofNat 5 c) with
  | some o => 2 ^ o.width
  | none => 0

theorem operandCount_le (c : Nat) : operandCount c ≤ 2 ^ 27 := by
  unfold operandCount
  split
  · rename_i o _
    exact Nat.pow_le_pow_right (by decide) (Nat.le_trans o.width_le (by decide))
  · exact Nat.zero_le _

theorem operandCount_code (o : Opcode) : operandCount o.code = 2 ^ o.width := by cases o <;> rfl

/-- Canonical: the bits above the opcode field hold an operand of the opcode, and nothing more (30_encoding R81). -/
theorem isCanonical_iff_operandCount (w : InstrWord) :
    isCanonical w = true ↔ w.toNat / 32 < operandCount (w.toNat % 32) := by
  have hb : BitVec.ofNat 5 (w.toNat % 32) = opcodeField w := by
    rw [← opcodeField_toNat, BitVec.ofNat_toNat, BitVec.setWidth_eq]
  rw [operandCount, hb, isCanonical]
  cases Opcode.ofBits (opcodeField w) with
  | none => simp
  | some o =>
    simp only [decide_eq_true_eq]
    rw [Nat.pow_add, Nat.div_lt_iff_lt_mul (by decide), Nat.mul_comm (2 ^ 5)]

/-- On a valid word, canonical says that no bit above the operand is set (30_encoding R81). -/
theorem isCanonical_iff_of_decodeWord {w : InstrWord} {i : Instr} (h : decodeWord w = .ok i) :
    isCanonical w = true ↔ w.toNat / 32 < 2 ^ i.opcode.width := by
  obtain ⟨hc, -⟩ := decodeWord_eq_ok_iff.1 h
  rw [isCanonical_iff_operandCount, hc, operandCount_code]

/-- A canonical word is valid (30_encoding R81). -/
theorem exists_decodeWord_of_isCanonical {w : InstrWord} (h : isCanonical w = true) : ∃ i, decodeWord w = .ok i := by
  cases hd : decodeWord w with
  | ok i => exact ⟨i, rfl⟩
  | error op =>
    have hn := Opcode.ofBits_eq_none_iff_toNat.2 (opcodeField_toNat w ▸ (decodeWord_eq_error_iff.1 hd).2)
    simp [isCanonical, hn] at h

/-- Encoding a decoded word gives it back exactly when it is canonical: the encoder keeps the bits that the decoder
reads and no other (30_encoding R82). -/
theorem encode_eq_iff_isCanonical {w : InstrWord} {i : Instr} (h : decodeWord w = .ok i) :
    encode i = w ↔ isCanonical w = true := by
  obtain ⟨hc, hn⟩ := decodeWord_eq_ok_iff.1 h
  rw [isCanonical_iff_of_decodeWord h, ← BitVec.toNat_inj, encode_toNat (decodeWord_wf h)]
  constructor
  · intro e
    have := (Instr.wf_iff i).1 (decodeWord_wf h)
    omega
  · intro hlt
    rw [Nat.mod_eq_of_lt hlt] at hn
    omega

theorem isCanonical_encode {i : Instr} (h : i.wf = true) : isCanonical (encode i) = true :=
  (encode_eq_iff_isCanonical (decodeWord_encode h)).1 rfl

-- ---------------------------------------------------------------- the reference encoder's range

theorem encodeChecked_fits {op : Opcode} {n : Nat} (h : n < 2 ^ op.width) :
    encodeChecked op n = .ok (encode (op.instr n)) := by
  have hn : (n : Int) < 2 ^ op.width := by exact_mod_cast h
  rw [encodeChecked, if_neg (by omega), if_pos hn, Int.toNat_natCast]

theorem encodeChecked_negative {op : Opcode} {n : Int} (h : n < 0) : encodeChecked op n = .error .nonNegative := by
  rw [encodeChecked, if_pos h]

theorem encodeChecked_above {op : Opcode} {n : Int} (h : 2 ^ op.width ≤ n) :
    encodeChecked op n = .error (.below (2 ^ op.width)) := by
  have hpos : (0 : Int) < 2 ^ op.width := by positivity
  rw [encodeChecked, if_neg (by omega), if_neg (by omega)]

-- ---------------------------------------------------------------- counting words

/-- The word with the opcode field `p.1` and `p.2` in the bits above it. -/
def wordOfFields (p : Σ _ : Nat, Nat) : InstrWord := BitVec.ofNat 32 (p.1 + p.2 * 32)

/-- The opcode fields, each with the values below `f` of it for the bits above. -/
def fieldPairs (f : Nat → Nat) : Finset (Σ _ : Nat, Nat) := (Finset.range 32).sigma fun c => Finset.range (f c)

theorem mem_fieldPairs {f : Nat → Nat} {p : Σ _ : Nat, Nat} : p ∈ fieldPairs f ↔ p.1 < 32 ∧ p.2 < f p.1 := by
  simp [fieldPairs]

/-- Every word is made of its two fields. -/
theorem wordOfFields_fields (w : InstrWord) : wordOfFields ⟨w.toNat % 32, w.toNat / 32⟩ = w := by
  rw [wordOfFields, Nat.mod_add_div', BitVec.ofNat_toNat, BitVec.setWidth_eq]

/-- A word shows the fields it was made of, when they fit. -/
theorem fields_wordOfFields {f : Nat → Nat} (hf : ∀ c, f c ≤ 2 ^ 27) {p : Σ _ : Nat, Nat} (hp : p ∈ fieldPairs f) :
    (wordOfFields p).toNat % 32 = p.1 ∧ (wordOfFields p).toNat / 32 = p.2 := by
  obtain ⟨hc, hk⟩ := mem_fieldPairs.1 hp
  have hle := hf p.1
  rw [wordOfFields, BitVec.toNat_ofNat]
  omega

theorem wordOfFields_injOn {f : Nat → Nat} (hf : ∀ c, f c ≤ 2 ^ 27) : Set.InjOn wordOfFields (fieldPairs f) := by
  intro p hp q hq h
  obtain ⟨hp1, hp2⟩ := fields_wordOfFields hf hp
  obtain ⟨hq1, hq2⟩ := fields_wordOfFields hf hq
  exact Sigma.ext (by rw [← hp1, h, hq1]) (heq_of_eq (by rw [← hp2, h, hq2]))

theorem image_wordOfFields {f : Nat → Nat} (hf : ∀ c, f c ≤ 2 ^ 27) :
    wordOfFields '' fieldPairs f = {w : InstrWord | w.toNat / 32 < f (w.toNat % 32)} := by
  ext w
  constructor
  · rintro ⟨p, hp, rfl⟩
    obtain ⟨h1, h2⟩ := fields_wordOfFields hf hp
    rw [Set.mem_ofPred_eq, h1, h2]
    exact (mem_fieldPairs.1 hp).2
  · intro hw
    exact ⟨⟨w.toNat % 32, w.toNat / 32⟩, mem_fieldPairs.2 ⟨Nat.mod_lt _ (by decide), hw⟩, wordOfFields_fields w⟩

/-- Words with `f c` values (at most all 2^27) admitted above the opcode field `c` are counted field by field. -/
theorem ncard_words_below {f : Nat → Nat} (hf : ∀ c, f c ≤ 2 ^ 27) :
    {w : InstrWord | w.toNat / 32 < f (w.toNat % 32)}.ncard = ∑ c ∈ Finset.range 32, f c := by
  rw [← image_wordOfFields hf, (wordOfFields_injOn hf).ncard_image, Set.ncard_coe_finset, fieldPairs,
    Finset.card_sigma]
  simp only [Finset.card_range]

/-- Each opcode field value has 2^27 words. -/
theorem ncard_words_opcode (P : Nat → Prop) [DecidablePred P] :
    {w : InstrWord | P (w.toNat % 32)}.ncard = ((Finset.range 32).filter P).card * 2 ^ 27 := by
  have hset : {w : InstrWord | P (w.toNat % 32)} =
      {w : InstrWord | w.toNat / 32 < if P (w.toNat % 32) then 2 ^ 27 else 0} := by
    ext w
    by_cases hP : P (w.toNat % 32)
    · simp only [Set.mem_ofPred_eq, hP, if_true, true_iff]
      omega
    · simp [hP]
  rw [hset, ncard_words_below (f := fun c => if P c then 2 ^ 27 else 0) (fun c => by split <;> decide),
    ← Finset.sum_filter, Finset.sum_const, smul_eq_mul]

end Sys2Proof
end

section
/-! SUPPORT. The family of the encoding (spec/30_encoding), second part: the bits above the operand in a step, the lines
of the assembler, and the obligations. -/

namespace Sys2Proof.Machine

-- ---------------------------------------------------------------- a word placed at `pc`

/-- The placed bytes are read back at their offset (20_memory R51). -/
theorem progRead_placeBytes (program : List Byte) (a : Nat) (bs : List Byte) :
    progRead (placeBytes program a bs) a bs.length = bs := by
  have hlen : (program.take a ++ List.replicate (a - program.length) 0).length = a := by
    rw [List.length_append, List.length_take, List.length_replicate]
    omega
  rw [progRead, placeBytes, List.append_assoc, List.drop_left' hlen, List.take_left]

theorem length_placeBytes_ge (program : List Byte) (a : Nat) (bs : List Byte) :
    a + bs.length ≤ (placeBytes program a bs).length := by
  simp only [placeBytes, List.length_append, List.length_take, List.length_replicate, List.length_drop]
  omega

theorem tableBytes_toNat (w : InstrWord) : tableBytes 32 w.toNat = wordBytes w := by
  rw [tableBytes, Nat.mod_eq_of_lt w.isLt, BitVec.ofNat_toNat, BitVec.setWidth_eq]

theorem fetch32_placeBytes (program : List Byte) (a : Nat) (w : InstrWord) :
    fetch32 (placeBytes program a (wordBytes w)) a = w := by
  rw [fetch32_eq (progRead_placeBytes program a (wordBytes w)), wordOfBytes_wordBytes]

/-- The same state with another program byte stream, to compare a word with its canonical word (30_encoding R76). -/
def State.withProgram (s : State) (P : List Byte) : State := { s with program := P }

/-- An instruction reads the program only to record the word of its cycle: on another program each case holds again, and
only `err_word` may differ. -/
theorem ExecCase.withProgram {s t : State} {i : Instr} (h : ExecCase s i t) (P : List Byte) :
    ∃ word, ExecCase (s.withProgram P) i { t with program := P, errWord := word } := by
  cases h with
  | loaded n room => exact ⟨_, .loaded n room⟩
  | loadOverflow n full => exact ⟨_, .loadOverflow n full⟩
  | readPushed a range room => exact ⟨_, .readPushed a range room⟩
  | readOverflow a range full => exact ⟨_, .readOverflow a range full⟩
  | readOutside a range => exact ⟨_, .readOutside a range⟩
  | wrote a st v top range => exact ⟨_, .wrote a st v top range⟩
  | writeUnderflow a empty => exact ⟨_, .writeUnderflow a empty⟩
  | writeOutside a st v top range => exact ⟨_, .writeOutside a st v top range⟩
  | compared off st v top low range room => exact ⟨_, .compared off st v top low range room⟩
  | compareOverflow off st v top low range full => exact ⟨_, .compareOverflow off st v top low range full⟩
  | compareUnderflow off empty => exact ⟨_, .compareUnderflow off empty⟩
  | compareOutside off st v top range => exact ⟨_, .compareOutside off st v top range⟩

@[simp] theorem State.withFetchWord_pc (s : State) (n w : Nat) : (s.withFetchWord n w).pc = s.pc := rfl

theorem State.withFetchWord_program (s : State) (w : InstrWord) :
    (s.withFetchWord 32 w.toNat).program = placeBytes s.program s.pc (wordBytes w) :=
  congrArg (placeBytes s.program s.pc) (tableBytes_toNat w)

theorem fetch32_withFetchWord (s : State) (w : InstrWord) :
    fetch32 (s.withFetchWord 32 w.toNat).program s.pc = w := by
  rw [State.withFetchWord_program, fetch32_placeBytes]

theorem withFetchWord_wholeWord (s : State) (w : InstrWord) : s.pc + 4 ≤ (s.withFetchWord 32 w.toNat).progLen := by
  rw [State.progLen, State.withFetchWord_program]
  exact length_placeBytes_ge s.program s.pc (wordBytes w)

/-- The step on a placed word executes its instruction and, unless it raised, records it (40_sequencer R106, R108). -/
theorem step_withFetchWord {s t : State} {w : InstrWord} {i : Instr} (hd : decodeWord w = .ok i)
    (he : exec i ((s.withFetchWord 32 w.toNat).setPc (s.pc + 4)) = .next t) :
    step (s.withFetchWord 32 w.toNat) =
      .next (if t.runState = .haltedError then t else t.appendTrace (traceRecord s.pc w i t)) := by
  have hd' : decodeWord (fetch32 (s.withFetchWord 32 w.toNat).program s.pc) = .ok i := by
    rw [fetch32_withFetchWord, hd]
  rw [step_running rfl, cycle_of_exec (withFetchWord_wholeWord s w) hd' he, State.withFetchWord_pc,
    fetch32_withFetchWord]

-- ---------------------------------------------------------------- the assembler

/-- Characters that are no blanks extend the token being read (30_encoding R86). -/
theorem tokensFrom_append {t : List Char} (h : ∀ c ∈ t, isBlankChar c = false) (cur rest : List Char) :
    tokensFrom cur (t ++ rest) = tokensFrom (t.reverse ++ cur) rest := by
  induction t generalizing cur with
  | nil => rfl
  | cons c cs ih =>
    rw [List.forall_mem_cons] at h
    obtain ⟨hc, hcs⟩ := h
    rw [List.cons_append, tokensFrom, hc, if_neg (by decide), ih hcs, List.reverse_cons, List.append_assoc,
      List.singleton_append]

theorem tokensFrom_token {t : List Char} (hne : t ≠ []) (h : ∀ c ∈ t, isBlankChar c = false) :
    tokensFrom [] t = [t] := by
  simpa [tokensFrom, hne] using tokensFrom_append h [] []

/-- Two tokens with a space between them are the line's two fields (30_encoding R86). -/
theorem lineTokens_pair {m t : List Char} (hm : m ≠ []) (hmb : ∀ c ∈ m, isBlankChar c = false) (ht : t ≠ [])
    (htb : ∀ c ∈ t, isBlankChar c = false) (hcr : t.getLast? ≠ some '\r') : lineTokens (m ++ ' ' :: t) = [m, t] := by
  have hlast : (m ++ ' ' :: t).getLast? = t.getLast? := by
    rw [List.getLast?_append_cons, List.getLast?_cons_of_ne_nil ht]
  rw [lineTokens, dropTrailingCr, hlast, if_neg hcr, tokensFrom_append hmb, tokensFrom,
    if_pos (by decide), tokensFrom_token ht htb]
  simp [hm]

theorem mnemonicText_ne_nil (op : Opcode) : mnemonicText op ≠ [] := by cases op <;> decide

theorem mnemonicText_nonblank (op : Opcode) : ∀ c ∈ mnemonicText op, isBlankChar c = false := by
  have hall : (mnemonicText op).all (fun c => !isBlankChar c) = true := by cases op <;> decide
  simpa using hall

theorem opcodeOfText_mnemonicText (op : Opcode) : opcodeOfText (mnemonicText op) = some op := by
  cases op <;> decide

theorem assembleFields_mnemonic (op : Opcode) (t : List Char) :
    assembleFields (mnemonicText op) t = (operandOfText t).bind (encodeRecord op) := by
  simp only [assembleFields, opcodeOfText_mnemonicText]
  cases operandOfText t <;> rfl

theorem assembleLine_of_fields {line m t : List Char} (h : lineTokens line = [m, t]) :
    assembleLine line = (assembleFields m t).map some := by
  simp only [assembleLine, h]
  cases assembleFields m t <;> rfl

/-- On a line of a mnemonic, a space and a token, the token decides (30_encoding R88). -/
theorem assembleLine_mnemonic (op : Opcode) {t : List Char} (ht : t ≠ []) (htb : ∀ c ∈ t, isBlankChar c = false)
    (hcr : t.getLast? ≠ some '\r') :
    assembleLine (mnemonicText op ++ ' ' :: t) = ((operandOfText t).bind (encodeRecord op)).map some := by
  rw [assembleLine_of_fields (lineTokens_pair (mnemonicText_ne_nil op) (mnemonicText_nonblank op) ht htb hcr),
    assembleFields_mnemonic]

theorem isDigitChar_not_blank {c : Char} (h : isDigitChar c = true) : isBlankChar c = false := by
  cases hb : isBlankChar c with
  | false => rfl
  | true =>
    simp only [isBlankChar, Bool.or_eq_true, beq_iff_eq] at hb
    rcases hb with rfl | rfl <;> simp [isDigitChar] at h

theorem isDigits_iff (ds : List Char) : isDigits ds = true ↔ ds ≠ [] ∧ ∀ c ∈ ds, isDigitChar c = true := by
  simp [isDigits]

theorem operandOfText_digits {ds : List Char} (h : isDigits ds = true) : operandOfText ds = .ok (digitsValue ds) := by
  unfold operandOfText
  rw [if_pos h]

theorem operandOfText_minus {ds : List Char} (h : isDigits ds = true) :
    operandOfText ('-' :: ds) = .error (.rangeError .nonNegative) := by
  have hsign : isDigits ('-' :: ds) = false := rfl
  unfold operandOfText
  rw [hsign, if_neg (by decide)]
  exact if_pos h

theorem operandOfText_other {t : List Char} (h : isDigits t = false) (hs : ∀ ds, t = '-' :: ds → isDigits ds = false) :
    operandOfText t = .error .syntaxError := by
  unfold operandOfText
  rw [h, if_neg (by decide)]
  split
  · rw [hs _ rfl, if_neg (by decide)]
  · rfl

theorem encodeRecord_fits {op : Opcode} {n : Nat} (h : n < 2 ^ op.width) :
    encodeRecord op n = .ok
      { mnemonic := mnemonicText op
        opcode := op.bits
        operand := n
        bytes := wordBytes (encode (op.instr n)) } := by
  rw [encodeRecord, encodeChecked_fits h]

theorem encodeRecord_above {op : Opcode} {n : Nat} (h : 2 ^ op.width ≤ n) :
    encodeRecord op n = .error (.rangeError (.below (2 ^ op.width))) := by
  rw [encodeRecord, encodeChecked_above (by exact_mod_cast h)]

theorem digits_nonblank {ds : List Char} (h : isDigits ds = true) : ∀ c ∈ ds, isBlankChar c = false :=
  fun c hc => isDigitChar_not_blank (((isDigits_iff ds).1 h).2 c hc)

theorem digits_getLast? {ds : List Char} (h : isDigits ds = true) : ds.getLast? ≠ some '\r' := by
  intro hl
  exact absurd (((isDigits_iff ds).1 h).2 _ (List.mem_of_getLast? hl)) (by decide)

theorem assembleFrom_cons_blank {n : Nat} {line : List Char} {rest : List (List Char)}
    (h : assembleLine line = .ok none) : assembleFrom n (line :: rest) = assembleFrom (n + 1) rest := by
  rw [assembleFrom, h]

theorem assembleFrom_cons_word {n : Nat} {line : List Char} {rest : List (List Char)} {r : AsmRec}
    (h : assembleLine line = .ok (some r)) :
    assembleFrom n (line :: rest) =
      { bytes := r.bytes ++ (assembleFrom (n + 1) rest).bytes
        trace := r :: (assembleFrom (n + 1) rest).trace
        error := (assembleFrom (n + 1) rest).error } := by
  rw [assembleFrom, h]

theorem assembleFrom_cons_error {n : Nat} {line : List Char} {rest : List (List Char)} {e : AsmErrorKind}
    (h : assembleLine line = .error e) :
    assembleFrom n (line :: rest) = { bytes := [], trace := [], error := some { line := n, kind := e } } := by
  rw [assembleFrom, h]

/-- The first failing line ends the call, with what the lines before it gave and its number (30_encoding R91). -/
theorem assembleFrom_append_error {pre post : List (List Char)} {bad : List Char} {e : AsmErrorKind} {n : Nat}
    (hpre : (assembleFrom n pre).error = none) (hbad : assembleLine bad = .error e) :
    assembleFrom n (pre ++ bad :: post) =
      { bytes := (assembleFrom n pre).bytes
        trace := (assembleFrom n pre).trace
        error := some { line := n + pre.length, kind := e } } := by
  induction pre generalizing n with
  | nil => exact assembleFrom_cons_error hbad
  | cons line rest ih =>
    rw [List.cons_append, List.length_cons, show n + (rest.length + 1) = n + 1 + rest.length by omega]
    cases hl : assembleLine line with
    | error e' => simp [assembleFrom_cons_error hl] at hpre
    | ok o =>
      cases o with
      | none =>
        rw [assembleFrom_cons_blank hl] at hpre ⊢
        rw [assembleFrom_cons_blank hl, ih hpre]
      | some r =>
        rw [assembleFrom_cons_word hl] at hpre ⊢
        rw [assembleFrom_cons_word hl, ih hpre]

-- ---------------------------------------------------------------- the obligations, by tier

/-- Settles O30: a word is the canonical word of what it decodes to exactly when it is canonical. -/
theorem decodeEncodeRoundTrip : Obligations.DecodeEncodeRoundTrip := by
  unfold Obligations.DecodeEncodeRoundTrip
  refine ⟨fun i => decodeWord_encode, fun w i h => ⟨decodeWord_wf h, encode_eq_iff_isCanonical h⟩,
    fun w => ⟨fun h => ?_, ?_⟩⟩
  · obtain ⟨i, hi⟩ := exists_decodeWord_of_isCanonical h
    exact ⟨i, decodeWord_wf hi, (encode_eq_iff_isCanonical hi).2 h⟩
  · rintro ⟨i, hi, rfl⟩
    exact isCanonical_encode hi

/-- Settles O32: both words decode to one instruction, whose case on the one program is its case on the other. -/
theorem highBitsIgnored : Obligations.HighBitsIgnored := by
  unfold Obligations.HighBitsIgnored
  refine ⟨by decide, fun w i h => decodeWord_encode (decodeWord_wf h), fun s w i h => ?_⟩
  have h' : decodeWord (encode i) = .ok i := decodeWord_encode (decodeWord_wf h)
  obtain ⟨t, ht, hc⟩ := exec_case i ((s.withFetchWord 32 w.toNat).setPc (s.pc + 4))
  obtain ⟨word, hc'⟩ := hc.withProgram (s.withFetchWord 32 (encode i).toNat).program
  have hstep := step_withFetchWord h ht
  have hstep' := step_withFetchWord (s := s) h' hc'.exec_eq
  by_cases hr : t.runState = .haltedError
  · rw [if_pos hr] at hstep hstep'
    exact ⟨_, _, hstep, hstep', rfl, rfl⟩
  · rw [if_neg hr] at hstep hstep'
    refine ⟨_, _, hstep, hstep', rfl, ?_⟩
    simp only [State.appendTrace, List.map_append, List.map_cons, List.map_nil, traceRecord,
      opcodeField_of_decodeWord h, opcodeField_of_decodeWord h']

/-- Settles O34: each clause is a condition on the opcode field and a bound on the bits above it. -/
theorem wordCounts : Obligations.WordCounts := by
  unfold Obligations.WordCounts
  refine ⟨fun o => ?_, ?_, ?_, ?_⟩
  · have hset (w : InstrWord) : (∃ x, decodeWord w = .ok (o.instr x)) ↔ w.toNat % 32 = o.code := by
      simp [decodeWord_eq_ok_iff]
    simp only [hset]
    rw [ncard_words_opcode (· = o.code)]
    cases o <;> rfl
  · simp only [exists_decodeWord_eq_ok_iff]
    rw [ncard_words_opcode (· ∈ [17, 18, 23, 26])]
    rfl
  · simp only [exists_decodeWord_eq_error_iff]
    rw [ncard_words_opcode (· ∉ [17, 18, 23, 26])]
    rfl
  · simp only [isCanonical_iff_operandCount]
    rw [ncard_words_below operandCount_le]
    rfl

/-- Settles O49: the line has the two fields, and the form of the second decides. -/
theorem assembleOneLine : Obligations.AssembleOneLine := by
  unfold Obligations.AssembleOneLine
  refine ⟨fun op tok hne hb hcr hd hs => ?_, fun op ds hds => ?_⟩
  · rw [assembleLine_mnemonic op hne hb hcr, operandOfText_other hd hs]
    rfl
  · obtain ⟨hne, -⟩ := (isDigits_iff ds).1 hds
    have hb := digits_nonblank hds
    have hcr := digits_getLast? hds
    have hdigits := assembleLine_mnemonic op hne hb hcr
    rw [operandOfText_digits hds] at hdigits
    refine ⟨fun h => ?_, fun h => ?_, ?_⟩
    · rw [hdigits, Except.bind, encodeRecord_fits h]
      rfl
    · rw [hdigits, Except.bind, encodeRecord_above h]
      rfl
    · have hb' : ∀ c ∈ '-' :: ds, isBlankChar c = false := List.forall_mem_cons.2 ⟨by decide, hb⟩
      have hcr' : ('-' :: ds).getLast? ≠ some '\r' := by rwa [List.getLast?_cons_of_ne_nil hne]
      rw [assembleLine_mnemonic op (List.cons_ne_nil _ _) hb' hcr', operandOfText_minus hds]
      rfl

/-- Settles O50, by induction on the lines before (`assembleFrom_append_error`). -/
theorem assemblyFailsFast : Obligations.AssemblyFailsFast := by
  unfold Obligations.AssemblyFailsFast
  intro pre post bad e hpre hbad
  rw [assemble, assembleFrom_append_error hpre hbad, Nat.add_comm, assemble]

/-- Settles O29: nine rows of literals, evaluated. -/
theorem workedEncodings : Obligations.WorkedEncodings := by
  unfold Obligations.WorkedEncodings
  decide

/-- Settles O33: `decodeWord_eq_error_iff`, and the count over the 32 field values. -/
theorem illegalOpcodes : Obligations.IllegalOpcodes := by
  unfold Obligations.IllegalOpcodes
  exact ⟨fun w op => decodeWord_eq_error_iff, by decide⟩

/-- Settles O35: the three branches of `encodeChecked`, and `encode_toNat` for the word. -/
theorem referenceEncoderRange : Obligations.ReferenceEncoderRange := by
  unfold Obligations.ReferenceEncoderRange
  refine fun op n => ⟨fun h0 hlt => ?_, encodeChecked_negative, encodeChecked_above⟩
  obtain ⟨m, rfl⟩ := Int.eq_ofNat_of_zero_le h0
  have hm : m < 2 ^ op.width := by exact_mod_cast hlt
  have hwf : (op.instr m).wf = true := by rwa [Instr.wf_iff, Opcode.instr_operand, Opcode.instr_opcode]
  refine ⟨_, encodeChecked_fits hm, ?_⟩
  rw [encode_toNat hwf, Opcode.instr_operand, Opcode.instr_opcode]
  exact Int.natCast_add ..

end Sys2Proof.Machine
end

section
/-! SUPPORT. The family of the sequencer (spec/40_sequencer): what a RUNNING step does, how many cycles a run takes, the
trace's account of the executed words, and runs with a preload; then the obligations. -/

namespace Sys2Proof.Machine

-- ---------------------------------------------------------------- one RUNNING step

/-- A cycle of a RUNNING state finds the program exhausted and changes the run state only, or ends in an error with no
trace record, or executes the word at `pc` and records its bytes (40_sequencer R101, R102, R108). -/
theorem CycleCase.halted_or_executed {s t : State} (h : CycleCase s t) (hs : s.runState = .running) :
    (s.progLen ≤ s.pc ∧ t = s.setRunState .haltedSuccess) ∨
    (s.pc < s.progLen ∧ t.runState = .haltedError ∧ t.trace = s.trace) ∨
    (s.pc + 4 ≤ s.progLen ∧ t.runState = .running ∧ t.pc = s.pc + 4 ∧
      ∃ r, t.trace = s.trace ++ [r] ∧ r.bytes = progRead s.program s.pc 4) := by
  cases h with
  | exhausted h => exact .inl ⟨h, rfl⟩
  | partialWord h => exact .inr (.inl ⟨h, rfl, rfl⟩)
  | invalid h4 => exact .inr (.inl ⟨by omega, rfl, rfl⟩)
  | raised h4 i t hd he hr => exact .inr (.inl ⟨by omega, hr, he.trace_eq⟩)
  | completed h4 i t hd he hr =>
    have hrun : t.runState = .running := by
      rcases he.kept_or_raised with ⟨hk, -⟩ | ⟨hk, -⟩
      · exact hk.trans hs
      · exact absurd hk hr
    refine .inr (.inr ⟨h4, hrun, he.pc_eq, traceRecord s.pc (fetch32 s.program s.pc) i t, ?_, ?_⟩)
    · rw [State.appendTrace_trace, he.trace_eq, State.setPc_trace]
    · rw [traceRecord, he.program_eq, State.setPc_program]

theorem step_halted_or_executed {s t : State} (hs : s.runState = .running) (h : step s = .next t) :
    (s.progLen ≤ s.pc ∧ t = s.setRunState .haltedSuccess) ∨
    (s.pc < s.progLen ∧ t.runState = .haltedError ∧ t.trace = s.trace) ∨
    (s.pc + 4 ≤ s.progLen ∧ t.runState = .running ∧ t.pc = s.pc + 4 ∧
      ∃ r, t.trace = s.trace ++ [r] ∧ r.bytes = progRead s.program s.pc 4) := by
  rcases step_inv h with ⟨hs', -⟩ | ⟨-, hc⟩
  · exact absurd hs hs'
  · exact hc.halted_or_executed hs

/-- The exhaustion cycle (40_sequencer R102). -/
theorem step_exhausted {s : State} (hs : s.runState = .running) (h : s.progLen ≤ s.pc) :
    step s = .next (s.setRunState .haltedSuccess) :=
  (CycleCase.exhausted h).step_eq hs

/-- Only the exhaustion cycle halts with success. -/
theorem step_success {s t : State} (hs : s.runState = .running) (h : step s = .next t)
    (ht : t.runState = .haltedSuccess) : s.progLen ≤ s.pc ∧ t = s.setRunState .haltedSuccess := by
  rcases step_halted_or_executed hs h with hx | ⟨-, hr, -⟩ | ⟨-, hr, -⟩
  · exact hx
  · simp [hr] at ht
  · simp [hr] at ht

/-- No error is recorded before HALTED_ERROR (10_state R32). -/
theorem step_keeps_errorClear (s t : State) (h : step s = .next t)
    (hs : s.runState ≠ .haltedError → s.errCode = .noError) : t.runState ≠ .haltedError → t.errCode = .noError := by
  rcases step_inv h with ⟨-, rfl⟩ | ⟨hrun, hc⟩
  · exact hs
  · have hclear : s.errCode = .noError := hs (by simp [hrun])
    intro ht
    rcases hc.runState_cases hrun with ⟨-, -, he⟩ | ⟨-, hr, -⟩ | ⟨-, -, he⟩
    · exact he.trans hclear
    · exact absurd hr ht
    · exact he.trans hclear

-- ---------------------------------------------------------------- how many cycles a run takes (40_sequencer R112)

/-- The last cycle of a run, where `runCycles_succ` takes the first. -/
theorem step_of_runCycles_succ {k : Nat} {s t u : State} (ht : runCycles k s = .next t)
    (hu : runCycles (k + 1) s = .next u) : step t = .next u := by
  induction k generalizing s with
  | zero =>
    cases ht
    obtain ⟨v, hv, -⟩ := step_case t
    rwa [runCycles_succ hv, runCycles_zero, ← hv] at hu
  | succ k ih =>
    obtain ⟨v, hv, -⟩ := step_case s
    rw [runCycles_succ hv] at ht hu
    exact ih ht hu

/-- `k` cycles halt every run with fewer than `4 * k` bytes left. -/
theorem runCycles_halts {k : Nat} {s : State} (hs : s.runState = .running) (hk : s.progLen - s.pc < 4 * k) :
    ∃ t, runCycles k s = .next t ∧ t.runState.halted = true := by
  induction k generalizing s with
  | zero => omega
  | succ k ih =>
    obtain ⟨u, hu, -⟩ := step_case s
    rw [runCycles_succ hu]
    rcases step_halted_or_executed hs hu with ⟨-, rfl⟩ | ⟨-, hr, -⟩ | ⟨h4, hr, hpc, -⟩
    · exact ⟨_, runCycles_idle (by simp) k, rfl⟩
    · exact ⟨u, runCycles_idle (by simp [hr]) k, by rw [hr]; rfl⟩
    · refine ih hr ?_
      rw [step_progLen_eq hu, hpc]
      omega

/-- A success within `k` cycles had fewer than `k` whole words to execute. -/
theorem progLen_lt_of_success {k : Nat} {s t : State} (hs : s.runState = .running) (h : runCycles k s = .next t)
    (ht : t.runState = .haltedSuccess) : s.progLen < s.pc + 4 * k := by
  induction k generalizing s with
  | zero =>
    cases h
    simp [hs] at ht
  | succ k ih =>
    obtain ⟨u, hu, -⟩ := step_case s
    rw [runCycles_succ hu] at h
    rcases step_halted_or_executed hs hu with ⟨hx, -⟩ | ⟨-, hr, -⟩ | ⟨-, hr, hpc, -⟩
    · omega
    · rw [runCycles_idle (by simp [hr]) k] at h
      cases h
      simp [hr] at ht
    · have hlt := ih hr h
      rw [step_progLen_eq hu, hpc] at hlt
      omega

/-- The exhaustion cycle never comes among the first `k` where `k` whole words are left. -/
theorem running_before_success {k : Nat} {s t u : State} (hs : s.runState = .running)
    (hk : s.pc + 4 * k ≤ s.progLen) (ht : runCycles k s = .next t) (hu : step t = .next u)
    (hsucc : u.runState = .haltedSuccess) : t.runState = .running := by
  by_contra hrun
  obtain rfl : t = u := Host.Outcome.next.inj ((step_idle hrun).symm.trans hu)
  have hlt := progLen_lt_of_success hs ht hsucc
  omega

-- ---------------------------------------------------------------- the trace's account of the executed words (R108, R113)

/-- A raise leaves the trace and the program, so the account stays. -/
theorem State.TraceInv.raised {s t : State} (h : s.TraceInv) (htr : t.trace = s.trace) (hp : t.program = s.program)
    (ht : t.runState = .haltedError) : t.TraceInv where
  bytes_eq := by rw [htr, hp, h.bytes_eq]
  within := by rw [htr, State.progLen, hp]; exact h.within
  pc_eq hne := absurd ht hne
  exhausted hsucc := by simp [ht] at hsucc

/-- The bytes of the executed word extend the recorded start of the program. -/
theorem State.TraceInv.executed {s t : State} {r : TraceRec} (h : s.TraceInv) (hs : s.runState = .running)
    (h4 : s.pc + 4 ≤ s.progLen) (htr : t.trace = s.trace ++ [r]) (hr : r.bytes = progRead s.program s.pc 4)
    (hp : t.program = s.program) (hpc : t.pc = s.pc + 4) (ht : t.runState = .running) : t.TraceInv := by
  have hs_pc : s.pc = 4 * s.trace.length := h.pc_eq (by simp [hs])
  have hlen : 4 * t.trace.length = s.pc + 4 := by
    rw [htr, List.length_append, List.length_singleton]
    omega
  refine ⟨?_, ?_, fun _ => by rw [hpc, hlen], fun hsucc => by simp [ht] at hsucc⟩
  · rw [hlen, htr, List.flatMap_append, List.flatMap_singleton, h.bytes_eq, hr, hp, ← hs_pc, progRead, List.take_add]
  · rw [hlen, State.progLen, hp]
    exact h4

theorem step_keeps_traceInv (s t : State) (h : step s = .next t) (hs : s.TraceInv) : t.TraceInv := by
  obtain ⟨hp, -, -⟩ := step_inputs_eq h
  by_cases hrun : s.runState = .running
  · rcases step_halted_or_executed hrun h with ⟨hx, rfl⟩ | ⟨-, ht, htr⟩ | ⟨h4, ht, hpc, r, htr, hr⟩
    · exact ⟨hs.bytes_eq, hs.within, fun _ => hs.pc_eq (by simp [hrun]), fun _ => hx⟩
    · exact hs.raised htr hp ht
    · exact hs.executed hrun h4 htr hr hp hpc ht
  · obtain rfl : s = t := Host.Outcome.next.inj ((step_idle hrun).symm.trans h)
    exact hs

/-- At a successful halt the account is complete: one record a word, and no byte left over. -/
theorem State.TraceInv.complete {s : State} (h : s.TraceInv) (hs : s.runState = .haltedSuccess) :
    s.progLen = 4 * s.trace.length ∧ s.pc = s.progLen := by
  have hpc := h.pc_eq (by simp [hs])
  have hx := h.exhausted hs
  have hin := h.within
  omega

-- ---------------------------------------------------------------- a run with whatever preload

/-- The start of a run whose memory and stack the host has preloaded (10_state R38). -/
def State.preloaded (p : Params) (P : List Byte) (n : Nat) (m : Memory) (st : List Value) : State :=
  { State.started p P n with mem := m, stack := st }

@[simp] theorem State.preloaded_program (p : Params) (P : List Byte) (n : Nat) (m : Memory) (st : List Value) :
    (State.preloaded p P n m st).program = P := rfl
@[simp] theorem State.preloaded_progLen (p : Params) (P : List Byte) (n : Nat) (m : Memory) (st : List Value) :
    (State.preloaded p P n m st).progLen = P.length := rfl
@[simp] theorem State.preloaded_pc (p : Params) (P : List Byte) (n : Nat) (m : Memory) (st : List Value) :
    (State.preloaded p P n m st).pc = 0 := rfl
@[simp] theorem State.preloaded_runState (p : Params) (P : List Byte) (n : Nat) (m : Memory) (st : List Value) :
    (State.preloaded p P n m st).runState = .running := rfl
@[simp] theorem State.preloaded_trace (p : Params) (P : List Byte) (n : Nat) (m : Memory) (st : List Value) :
    (State.preloaded p P n m st).trace = [] := rfl

theorem State.preloaded_traceInv (p : Params) (P : List Byte) (n : Nat) (m : Memory) (st : List Value) :
    (State.preloaded p P n m st).TraceInv where
  bytes_eq := by simp
  within := by simp
  pc_eq _ := by simp
  exhausted h := by simp at h

theorem preloaded_halts (p : Params) (P : List Byte) (n : Nat) (m : Memory) (st : List Value) :
    ∃ t, runCycles (P.length / 4 + 1) (State.preloaded p P n m st) = .next t ∧ t.runState.halted = true := by
  refine runCycles_halts (State.preloaded_runState ..) ?_
  rw [State.preloaded_progLen]
  omega

/-- The trace of a successful run accounts for the whole program (40_sequencer R113). -/
theorem preloaded_complete {p : Params} {P : List Byte} {n k : Nat} {m : Memory} {st : List Value} {t : State}
    (h : runCycles k (State.preloaded p P n m st) = .next t) (ht : t.runState = .haltedSuccess) :
    P.length = 4 * t.trace.length ∧ t.pc = P.length ∧ t.trace.flatMap (fun r => r.bytes) = P := by
  have hinv : t.TraceInv := runCycles_keeps step_keeps_traceInv h (State.preloaded_traceInv p P n m st)
  have hp : t.program = P := runCycles_program_eq h
  obtain ⟨hcount, hpc⟩ := hinv.complete ht
  rw [State.progLen, hp] at hcount hpc
  exact ⟨hcount, hpc, by rw [hinv.bytes_eq, hp, ← hcount, List.take_length]⟩

-- ---------------------------------------------------------------- the obligations, by tier

/-- Settles O13: the exhaustion cycle is the one cycle that halts with success, and an empty program starts with it. -/
theorem exhaustionHaltsWithSuccess : Obligations.ExhaustionHaltsWithSuccess := by
  unfold Obligations.ExhaustionHaltsWithSuccess
  refine ⟨fun s hs hx => step_exhausted hs hx, fun s t hs hle h => ⟨fun ht => ?_, fun heq => ?_⟩,
    fun p n => ⟨_, step_exhausted rfl (Nat.le_refl 0), rfl, rfl⟩⟩
  · obtain ⟨hx, -⟩ := step_success hs h ht
    omega
  · rw [step_exhausted hs (by omega)] at h
    cases h
    rfl

/-- Settles O16: a step that stays in RUNNING executed one word, and no instruction names `pc` (`ExecCase.pc_eq`). -/
theorem runningStepAdvancesOneWord : Obligations.RunningStepAdvancesOneWord := by
  unfold Obligations.RunningStepAdvancesOneWord
  intro s t hs h
  refine ⟨fun ht => ?_, ?_, fun i u he => (exec_inv he).pc_eq⟩
  · rcases step_halted_or_executed hs h with ⟨-, rfl⟩ | ⟨-, hr, -⟩ | ⟨-, -, hpc, r, htr, -⟩
    · simp at ht
    · simp [hr] at ht
    · exact ⟨hpc, by rw [htr, List.length_append, List.length_singleton]⟩
  · rcases step_pc_trace_cases h with ⟨hpc, -⟩ | ⟨-, hpc, -⟩
    · exact .inl hpc
    · exact .inr hpc

/-- Settles O46: each cycle halts or takes one of the words left, so the exhaustion cycle cannot come before all are
taken, and the trace counts them. -/
theorem everyRunHalts : Obligations.EveryRunHalts := by
  unfold Obligations.EveryRunHalts
  refine ⟨fun s hs => runCycles_halts hs (by omega), fun p P n m st => ?_⟩
  obtain ⟨t, ht⟩ := runCycles_total (P.length / 4) (State.preloaded p P n m st)
  obtain ⟨u, hu, hhalt⟩ := preloaded_halts p P n m st
  refine ⟨t, u, ht, hu, hhalt, fun hsucc => ?_⟩
  have hstep : step t = .next u := step_of_runCycles_succ ht hu
  have hrun : t.runState = .running := by
    refine running_before_success (State.preloaded_runState p P n m st) ?_ ht hstep hsucc
    rw [State.preloaded_pc, State.preloaded_progLen]
    omega
  obtain ⟨-, hut⟩ := step_success hrun hstep hsucc
  obtain ⟨hcount, -, -⟩ := preloaded_complete hu hsucc
  rw [hut, State.setRunState_trace] at hcount
  exact ⟨hrun, by omega, hut⟩

/-- Settles O47: the trace's account is complete at a success; a program with a partial word halts (O46), and not with
success. -/
theorem successExecutesEveryWord : Obligations.SuccessExecutesEveryWord := by
  unfold Obligations.SuccessExecutesEveryWord
  intro p P n m st
  refine ⟨fun k t h ht => ?_, fun hpart => ?_⟩
  · obtain ⟨hcount, hpc, hbytes⟩ := preloaded_complete h ht
    refine ⟨by omega, hbytes, by omega, hpc, ?_⟩
    exact runCycles_keeps step_keeps_errorClear h (fun _ => rfl) (by simp [ht])
  · obtain ⟨t, h, hhalt⟩ := preloaded_halts p P n m st
    refine ⟨t, h, ?_⟩
    cases ht : t.runState with
    | haltedError => rfl
    | haltedSuccess =>
      obtain ⟨hcount, -, -⟩ := preloaded_complete h ht
      omega
    | ready | running => simp [ht, RunState.halted] at hhalt

/-- Settles O9: outside RUNNING a step idles; in RUNNING it halts or executes a word. -/
theorem cyclesRunOnlyWhileRunning : Obligations.CyclesRunOnlyWhileRunning := by
  unfold Obligations.CyclesRunOnlyWhileRunning
  refine fun s => ⟨step_idle, fun hs => ?_⟩
  obtain ⟨t, ht, -⟩ := step_case s
  refine ⟨t, ht, ?_⟩
  rcases step_halted_or_executed hs ht with ⟨-, rfl⟩ | ⟨-, hr, -⟩ | ⟨-, -, hpc, -⟩
  · exact .inr rfl
  · exact .inr (by rw [hr]; rfl)
  · exact .inl hpc

/-- Settles O14: one to three bytes left are the partial word of a cycle; a reset clears the error code whatever the
program's length. -/
theorem partialWordFaults : Obligations.PartialWordFaults := by
  unfold Obligations.PartialWordFaults
  exact ⟨fun s hs hpos hlt => (CycleCase.partialWord (by omega) (by omega)).step_eq hs,
    fun s P n hP _ => ⟨_, hostReset_accepted hP n, rfl⟩⟩

/-- Settles O15: the decoder answers INVALID exactly on these words (`decodeWord_eq_error_iff`). -/
theorem invalidOpcodeFaults : Obligations.InvalidOpcodeFaults := by
  unfold Obligations.InvalidOpcodeFaults
  intro s hs h4 hop
  have hd : decodeWord (fetch32 s.program s.pc) = .error (opcodeField (fetch32 s.program s.pc)) :=
    decodeWord_eq_error_iff.2 ⟨opcodeField_toNat _, hop⟩
  rw [(CycleCase.invalid h4 _ hd).step_eq hs, opcodeField_toNat]
  rfl

end Sys2Proof.Machine
end

section
/-! SUPPORT. The family of the stack load (spec/41_stack_load): the stack grows by at most one entry a word, so a stack as
deep as the program is long has room in every cycle; then the obligations. -/

namespace Sys2Proof.Machine

theorem sp_of_top {s : State} {st : List Value} {v : Value} (top : s.stack = st ++ [v]) : s.sp = st.length + 1 := by
  rw [State.sp, top, List.length_append, List.length_singleton]

/-- Every instruction pushes at most one entry more than it pops. -/
theorem ExecCase.sp_le {s t : State} {i : Instr} (h : ExecCase s i t) : t.sp ≤ s.sp + 1 := by
  cases h with
  | loaded | readPushed => simp [State.sp]
  | compared _ _ _ top => simp [State.sp, top]
  | wrote _ _ _ top | writeOutside _ _ _ top | compareOverflow _ _ _ top | compareOutside _ _ _ top =>
    rw [sp_of_top top]
    exact Nat.le_add_right _ 2
  | loadOverflow | readOverflow | readOutside | writeUnderflow | compareUnderflow => exact Nat.le_succ s.sp

/-- With room no instruction records StackOverflowError; NOT_EQUAL pops before it pushes (43_compare R150). -/
theorem ExecCase.errCode_ne_stackOverflow {s t : State} {i : Instr} (h : ExecCase s i t)
    (room : s.sp < s.params.stackDepth) (hs : s.errCode ≠ .stackOverflow) : t.errCode ≠ .stackOverflow := by
  cases h with
  | loaded | readPushed | wrote | compared => exact hs
  | readOutside | writeUnderflow | writeOutside | compareUnderflow | compareOutside => simp
  | loadOverflow _ full | readOverflow _ _ full => exact absurd full (Nat.ne_of_lt room)
  | compareOverflow _ st _ top _ _ full =>
    rw [sp_of_top top] at room
    omega

/-- No overflow so far, and none ahead: the stack holds at most one entry for each word passed, and has an entry for
each word of the program (41_stack_load R121). -/
structure State.DeepStack (s : State) : Prop where
  depth_ge : s.progLen / 4 ≤ s.params.stackDepth
  sp_le : 4 * s.sp ≤ s.pc
  noOverflow : s.errCode ≠ .stackOverflow

/-- Before a whole word there is room for the entry that it may push. -/
theorem State.DeepStack.room {s : State} (h : s.DeepStack) (h4 : s.pc + 4 ≤ s.progLen) :
    s.sp < s.params.stackDepth := by
  have hdepth := h.depth_ge
  have hsp := h.sp_le
  omega

theorem State.DeepStack.executed {s t : State} {i : Instr} (h : s.DeepStack) (h4 : s.pc + 4 ≤ s.progLen)
    (he : ExecCase (s.setPc (s.pc + 4)) i t) : t.DeepStack where
  depth_ge := by
    obtain ⟨hp, -, hq⟩ := he.inputs_eq
    rw [State.progLen, hp, hq]
    exact h.depth_ge
  sp_le := by
    have hgrow : t.sp ≤ s.sp + 1 := he.sp_le
    have hpc : t.pc = s.pc + 4 := he.pc_eq
    have hsp := h.sp_le
    omega
  noOverflow := he.errCode_ne_stackOverflow (h.room h4) h.noOverflow

theorem step_keeps_deepStack (s t : State) (h : step s = .next t) (hs : s.DeepStack) : t.DeepStack := by
  rcases step_inv h with ⟨-, rfl⟩ | ⟨-, hc⟩
  · exact hs
  · cases hc with
    | exhausted => exact ⟨hs.depth_ge, hs.sp_le, hs.noOverflow⟩
    | partialWord => exact ⟨hs.depth_ge, hs.sp_le, by simp⟩
    | invalid => exact ⟨hs.depth_ge, Nat.le_add_right_of_le hs.sp_le, by simp⟩
    | raised h4 i t hd he hr => exact hs.executed h4 he
    | completed h4 i t hd he hr =>
      have ht : t.DeepStack := hs.executed h4 he
      exact ⟨ht.depth_ge, ht.sp_le, ht.noOverflow⟩

-- ---------------------------------------------------------------- the obligations, by tier

/-- Settles O48: a run with an empty stack starts in `DeepStack`, every step keeps it, and LOAD_CONST has two cases. -/
theorem deepStackNeverOverflows : Obligations.DeepStackNeverOverflows := by
  unfold Obligations.DeepStackNeverOverflows
  refine ⟨fun p P n k m t hP h => ?_, fun s t n hs h => ?_⟩
  · have hstart : ({ State.started p P n with mem := m } : State).DeepStack :=
      ⟨hP, Nat.le_refl 0, ErrCode.noConfusion⟩
    exact (runCycles_keeps step_keeps_deepStack h hstart).noOverflow
  · cases exec_inv h with
    | loaded => exact ⟨rfl, .inl hs⟩
    | loadOverflow => exact ⟨rfl, .inr ⟨rfl, rfl⟩⟩

/-- Settles O17: the two branches of `push`, the literal kept by its zero extension (`zextEntry_eq`), and the decoder's
arithmetic. -/
theorem loadConstMeaning : Obligations.LoadConstMeaning := by
  unfold Obligations.LoadConstMeaning
  refine ⟨fun s n hw hn room => ?_, fun s n full => push_full full,
    fun w hop => decodeWord_eq_ok_iff.2 ⟨hop, rfl⟩⟩
  rw [exec, execLoadConst, zextEntry_eq hw hn, push_room (Nat.ne_of_lt room), State.setStack]

end Sys2Proof.Machine
end

section
/-! SUPPORT. The family of the memory access (spec/42_memory_access): how a step may change memory, which instruction a
step that stays in RUNNING completed, and a cell along a run; then the obligations. -/

namespace Sys2Proof.Machine

-- ---------------------------------------------------------------- how a step may change memory (42_memory_access R136)

/-- An instruction leaves memory, or it is a WRITE_TO_MEMORY that stores one value in its cell without raising. -/
theorem ExecCase.mem_cases {s t : State} {i : Instr} (h : ExecCase s i t) :
    t.mem = s.mem ∨
    ∃ a v, i = .writeToMemory a ∧ t.runState = s.runState ∧ t.mem = s.mem.write a v := by
  cases h with
  | wrote a st v => exact .inr ⟨a, v, rfl, rfl, rfl⟩
  | loaded | loadOverflow | readPushed | readOverflow | readOutside | writeUnderflow | writeOutside | compared
  | compareOverflow | compareUnderflow | compareOutside => exact .inl rfl

/-- A step leaves memory, or it runs in RUNNING, stays there, and stores in the cell of the WRITE_TO_MEMORY it fetched. -/
theorem step_mem_cases {s t : State} (h : step s = .next t) :
    t.mem = s.mem ∨
    (s.runState = .running ∧ t.runState = .running ∧
      ∃ a v, decodeWord (fetch32 s.program s.pc) = .ok (.writeToMemory a) ∧ t.mem = s.mem.write a v) := by
  rcases step_inv h with ⟨-, rfl⟩ | ⟨hs, hc⟩
  · exact .inl rfl
  · cases hc with
    | exhausted | partialWord | invalid => exact .inl rfl
    | raised h4 i t hd he | completed h4 i t hd he =>
      rcases he.mem_cases with hm | ⟨a, v, rfl, hr, hm⟩
      · exact .inl hm
      · exact .inr ⟨hs, hr.trans hs, a, v, hd, hm⟩

/-- A step that does not fetch a WRITE_TO_MEMORY of a cell leaves that cell. -/
theorem step_read_eq {s t : State} {a : Nat} (hwf : s.mem.wf = true) (h : step s = .next t)
    (hno : decodeWord (fetch32 s.program s.pc) ≠ .ok (.writeToMemory a)) : t.mem.read a = s.mem.read a := by
  rcases step_mem_cases h with hm | ⟨-, -, b, v, hd, hm⟩
  · rw [hm]
  · have hab : a ≠ b := by
      rintro rfl
      exact hno hd
    rw [hm, Memory.read_write b v hwf, if_neg hab]

-- ---------------------------------------------------------------- a step that stays in RUNNING

/-- A step that stays in RUNNING completed the instruction it fetched, with `pc` advanced, and recorded it in the trace. -/
theorem step_completed {s u : State} {i : Instr} (hs : s.runState = .running) (h : step s = .next u)
    (hu : u.runState = .running) (hd : decodeWord (fetch32 s.program s.pc) = .ok i) :
    ∃ t r, ExecCase (s.setPc (s.pc + 4)) i t ∧ u = t.appendTrace r := by
  rcases step_inv h with ⟨hs', -⟩ | ⟨-, hc⟩
  · exact absurd hs hs'
  · cases hc with
    | exhausted | partialWord | invalid => simp at hu
    | raised h4 j t hd' he hr => simp [hr] at hu
    | completed h4 j t hd' he hr =>
      obtain rfl : i = j := Except.ok.inj (hd.symm.trans hd')
      exact ⟨t, _, he, rfl⟩

/-- Along a run that fetches no WRITE_TO_MEMORY of a cell, the cell keeps its value (42_memory_access R137). While the
run goes on, cycle `j` fetches at `4 * j` bytes past the start. -/
theorem runCycles_read_eq {k : Nat} {s u : State} {a : Nat} (hwf : s.mem.wf = true) (hs : s.runState = .running)
    (h : runCycles k s = .next u)
    (hno : ∀ j, j < k → decodeWord (fetch32 s.program (s.pc + 4 * j)) ≠ .ok (.writeToMemory a)) :
    u.mem.read a = s.mem.read a := by
  induction k generalizing s with
  | zero =>
    cases h
    rfl
  | succ k ih =>
    obtain ⟨t, ht, -⟩ := step_case s
    have hcell : t.mem.read a = s.mem.read a := step_read_eq hwf ht (hno 0 (Nat.succ_pos k))
    rw [runCycles_succ ht] at h
    by_cases hr : t.runState = .running
    · obtain ⟨hp, -, -⟩ := step_inputs_eq ht
      obtain ⟨hpc, -⟩ := (runningStepAdvancesOneWord s t hs ht).1 hr
      rw [← hcell]
      refine ih (step_keeps_mem_wf ht hwf) hr h fun j hj => ?_
      rw [hp, hpc, show s.pc + 4 + 4 * j = s.pc + 4 * (j + 1) by omega]
      exact hno (j + 1) (Nat.succ_lt_succ hj)
    · rw [runCycles_idle hr] at h
      cases h
      exact hcell

-- ---------------------------------------------------------------- the obligations, by tier

/-- Settles O19: the three cases of WRITE_TO_MEMORY (`ExecCase.exec_eq`), the written memory's reads
(`Memory.read_write`), and the decoder's arithmetic. -/
theorem writeToMemoryMeaning : Obligations.WriteToMemoryMeaning := by
  unfold Obligations.WriteToMemoryMeaning
  exact ⟨fun s a below v hwf range top => ⟨s.mem.write a v, (ExecCase.wrote a below v top range).exec_eq,
      Memory.write_wf a v hwf, Memory.read_write a v hwf⟩,
    fun s a empty => (ExecCase.writeUnderflow a empty).exec_eq,
    fun s a below v range top => (ExecCase.writeOutside a below v top range).exec_eq,
    fun w hop => decodeWord_eq_ok_iff.2 ⟨hop, rfl⟩⟩

/-- Settles O43: a step that changes memory stores in one cell and stays in RUNNING (`step_mem_cases`). -/
theorem onlyWriteToMemoryWrites : Obligations.OnlyWriteToMemoryWrites := by
  unfold Obligations.OnlyWriteToMemoryWrites
  intro s t hwf h
  rcases step_mem_cases h with hm | ⟨-, hr, a, v, hd, hm⟩
  · exact ⟨fun _ _ => hm, fun hne => absurd hm hne⟩
  · refine ⟨fun _ ht => by simp [hr] at ht, fun _ => ⟨a, hd, fun x hx => ?_⟩⟩
    rw [hm, Memory.read_write a v hwf, if_neg hx]

/-- Settles O44: no other cycle changes the cell (`runCycles_read_eq`), and a completed write or read is the one case of
its instruction that does not raise. -/
theorem readReturnsLastWrite : Obligations.ReadReturnsLastWrite := by
  unfold Obligations.ReadReturnsLastWrite
  refine fun s a hwf hs => ⟨fun k u h hno => runCycles_read_eq hwf hs h hno, fun u h hu hd => ?_, fun u h hu hd => ?_⟩
  · obtain ⟨t, r, he, rfl⟩ := step_completed hs h hu hd
    cases he with
    | wrote _ st v top =>
      have top' : s.stack = st ++ [v] := top
      exact ⟨Memory.write_wf a v hwf, by simp [top', Memory.read_write a v hwf]⟩
    | writeUnderflow | writeOutside => simp at hu
  · obtain ⟨t, r, he, rfl⟩ := step_completed hs h hu hd
    cases he with
    | readPushed => simp
    | readOverflow | readOutside => simp at hu

/-- Settles O18: the range check comes before the room (`ExecCase.exec_eq`), and the decoder's arithmetic gives the
operand. -/
theorem readFromMemoryMeaning : Obligations.ReadFromMemoryMeaning := by
  unfold Obligations.ReadFromMemoryMeaning
  exact ⟨fun s a range room => (ExecCase.readPushed a range (Nat.ne_of_lt room)).exec_eq,
    fun s a range => exec_read_outside range,
    fun s a range full => (ExecCase.readOverflow a range full).exec_eq,
    fun w hop => decodeWord_eq_ok_iff.2 ⟨hop, rfl⟩⟩

end Sys2Proof.Machine
end

section
/-! SUPPORT. The family of the compare (spec/43_compare): the entry that NOT_EQUAL pushes, and the room that its pop
leaves for it; then the obligations. -/

namespace Sys2Proof.Machine

/-- The pushed entry: the zero extension keeps NOT_EQUAL's truth value (43_compare R150, R153). -/
theorem zextEntry_notEqualResult_eq_ite {w : Nat} (hw : 14 ≤ w) (m v : Value) :
    zextEntry w (notEqualResult m v) = if m = v then 0 else 1 := by
  rw [zextEntry_notEqualResult hw]
  split
  next heq => rw [heq, notEqualResult_self, Nat.cast_zero]
  next hne => rw [notEqualResult_of_ne hne, Nat.cast_one]

/-- A pop from a stack within its depth leaves room for a push (43_compare R152). -/
theorem room_below_top {s : State} {st : List Value} {v : Value} (top : s.stack = st ++ [v])
    (hs : s.stack.length ≤ s.params.stackDepth) : st.length ≠ s.params.stackDepth := by
  have hsp : s.stack.length = st.length + 1 := sp_of_top top
  omega

-- ---------------------------------------------------------------- the obligations, by tier

/-- Settles O20: the three cases of NOT_EQUAL that a stack within its depth leaves (`ExecCase.exec_eq`,
`room_below_top`), the truth value kept by its zero extension, and the decoder's arithmetic. -/
theorem notEqualMeaning : Obligations.NotEqualMeaning := by
  unfold Obligations.NotEqualMeaning
  refine ⟨fun s off below v hw hs top low range => ?_,
    fun s off empty => (ExecCase.compareUnderflow off empty).exec_eq,
    fun s off below v top range => (ExecCase.compareOutside off below v top fun ⟨low, high⟩ =>
      range.elim low.not_gt high.not_ge).exec_eq,
    fun w hop => decodeWord_eq_ok_iff.2 ⟨hop, rfl⟩⟩
  rw [(ExecCase.compared off below v top low range (room_below_top top hs)).exec_eq,
    zextEntry_notEqualResult_eq_ite hw, State.setStack]

/-- Settles O21: of NOT_EQUAL's cases a stack within its depth excludes the overflow (`room_below_top`), and the one
that does not raise replaces the top by a truth value. -/
theorem notEqualKeepsDepth : Obligations.NotEqualKeepsDepth := by
  unfold Obligations.NotEqualKeepsDepth
  intro s t off _ hw hs hcode h
  cases exec_inv h with
  | compared _ below v top =>
    refine ⟨hcode, fun _ => ⟨?_, below, v, _, top, rfl, ?_⟩⟩
    · rw [sp_of_top top]
      exact sp_of_top rfl
    · rw [zextEntry_notEqualResult_eq_ite hw]
      exact ite_eq_or_eq _ _ _
  | compareOverflow _ below v top _ _ full => exact absurd full (room_below_top top hs)
  | compareUnderflow | compareOutside => simp

end Sys2Proof.Machine
end

section
/-! SUPPORT. The family of the exceptions (spec/60_exceptions): a RUNNING step as a cycle, and as the instruction of a
whole word; then the obligations. -/

namespace Sys2Proof.Machine

/-- The inversion form of a RUNNING step: it is one of the outcomes of a cycle. -/
theorem step_cycleCase {s t : State} (hs : s.runState = .running) (h : step s = .next t) : CycleCase s t := by
  rcases step_inv h with ⟨hs', -⟩ | ⟨-, hc⟩
  · exact absurd hs hs'
  · exact hc

/-- The cycle of a valid word: its instruction decides the run state and the error code, which the trace record leaves
(40_sequencer R106, R108). -/
theorem step_executed {s t : State} {i : Instr} (hs : s.runState = .running) (h : step s = .next t)
    (h4 : s.pc + 4 ≤ s.progLen) (hd : decodeWord (fetch32 s.program s.pc) = .ok i) :
    ∃ u, ExecCase (s.setPc (s.pc + 4)) i u ∧ t.runState = u.runState ∧ t.errCode = u.errCode := by
  obtain ⟨u, hu, he⟩ := exec_case i (s.setPc (s.pc + 4))
  rw [step_running hs, cycle_of_exec h4 hd hu] at h
  cases h
  refine ⟨u, he, ?_⟩
  split <;> exact ⟨rfl, rfl⟩

-- ---------------------------------------------------------------- the obligations, by tier

/-- Settles O27: the three ways a cycle raises (`CycleCase`); within an instruction each failing check
(`ExecCase`) records its own kind, and a stack within its depth excludes NOT_EQUAL's overflow (`room_below_top`). -/
theorem cycleFaultsAsRecorded : Obligations.CycleFaultsAsRecorded := by
  unfold Obligations.CycleFaultsAsRecorded
  intro s t hs hdepth h ht
  cases step_cycleCase hs h with
  | exhausted => simp at ht
  | completed h4 i t hd he hr => exact absurd ht hr
  | partialWord hlt h4 =>
    obtain ⟨low, high⟩ : 1 ≤ s.progLen - s.pc ∧ s.progLen - s.pc ≤ 3 := by omega
    exact ⟨rfl, rfl, rfl, rfl, rfl, rfl, rfl, rfl, rfl, Int.ofNat_le.2 low, Int.ofNat_le.2 high, rfl⟩
  | invalid h4 op hd =>
    obtain ⟨hop, hnot⟩ := decodeWord_eq_error_iff.1 hd
    refine ⟨rfl, rfl, rfl, rfl, rfl, rfl, rfl, rfl, ?_, ?_, rfl⟩
    · rw [raise_errInfo, hop]
      rfl
    · rw [raise_errInfo, hop]
      simpa [← Int.ofNat_inj] using hnot
  | raised h4 i t hd he hr =>
    cases he with
    | loaded | readPushed | wrote | compared => simp [hs] at hr
    | loadOverflow _ full | readOverflow _ _ full => simpa [State.sp] using full
    | compareOverflow _ st v top _ _ full => exact absurd full (room_below_top top hdepth)
    | writeUnderflow _ empty | compareUnderflow _ empty => simpa using empty
    | readOutside a range => simpa [hd] using range
    | writeOutside a st v top range => simpa [hd] using ⟨range, v, top⟩
    | compareOutside off st v top range => simpa [hd] using ⟨fun low => not_lt.1 fun high => range ⟨low, high⟩, top⟩

/-- Settles O28: exhaustion and the partial word are cycles of their own; a whole word is invalid or runs its
instruction (`step_executed`), each of whose cases names the check that failed and those that passed before it. -/
theorem cycleChecksInOrder : Obligations.CycleChecksInOrder := by
  unfold Obligations.CycleChecksInOrder
  intro s t hs hdepth h
  refine ⟨fun hx => ?_, fun hlt hp => ?_, fun h4 => ?_⟩
  · cases h.symm.trans (step_exhausted hs hx)
    rfl
  · cases h.symm.trans ((CycleCase.partialWord hlt hp).step_eq hs)
    exact ⟨rfl, rfl⟩
  · cases hd : decodeWord (fetch32 s.program s.pc) with
    | error op =>
      cases h.symm.trans ((CycleCase.invalid h4 op hd).step_eq hs)
      exact ⟨rfl, rfl⟩
    | ok i =>
      obtain ⟨u, he, hr, hc⟩ := step_executed hs h h4 hd
      rw [hr, hc]
      cases he with
      | loaded _ room => simpa [hs, State.sp] using room
      | loadOverflow _ full => simpa [State.sp] using full
      | readPushed _ range room => simpa [hs] using ⟨range, room⟩
      | readOverflow _ range full => simpa using ⟨range, full⟩
      | readOutside _ range => simpa using range
      | wrote _ st v top range => simpa [hs, show s.stack = st ++ [v] from top] using range
      | writeUnderflow _ empty => simpa using empty
      | writeOutside _ st v top range => simpa [show s.stack = st ++ [v] from top] using range
      | compared _ st v top low range => simpa [hs, show s.stack = st ++ [v] from top] using ⟨low, range⟩
      | compareOverflow _ st v top _ _ full => exact absurd full (room_below_top top hdepth)
      | compareUnderflow _ empty => simp [show s.stack = [] from empty]
      | compareOutside _ st v top range => simpa [show s.stack = st ++ [v] from top] using range

end Sys2Proof.Machine
end

section
/-! SUPPORT. The family of the reset (spec/70_reset_and_hazards): the refusal of a negative size, and what the fresh
state says of the program's length and of the stack (R190, R191). -/

namespace Sys2Proof.Machine

/-- A negative size is refused whatever the program and the state (70 R190). -/
theorem hostReset_negative {n : Int} (h : n < 0) (P : List Byte) (s : State) :
    hostReset P n s = .refused .negativeMemSize := by
  rw [hostReset, if_pos h]

@[simp] theorem State.resetWith_progLen (p : Params) (program : List Byte) (n : Nat) :
    (State.resetWith p program n).progLen = program.length := rfl

@[simp] theorem State.resetWith_sp (p : Params) (program : List Byte) (n : Nat) :
    (State.resetWith p program n).sp = 0 := rfl

/-- Settles O1: the accepted reset answers `State.resetWith` (`hostReset_accepted`), whose fields (the
`State.resetWith_*` lemmas) are R190's values; its memory lists no cell, so that every cell reads 0 (`Memory.read_nil`). -/
theorem resetMakesFreshState : Obligations.ResetMakesFreshState := by
  unfold Obligations.ResetMakesFreshState
  intro s P
  refine ⟨fun n hP => ⟨State.resetWith s.params P n, hostReset_accepted hP n, ?_⟩,
    fun n hn => hostReset_negative hn P s⟩
  simp

end Sys2Proof.Machine
end

section
/-! SUPPORT. The core invariant and the trace's account: what each update of the state needs to keep the core invariant,
then instructions, cycles, resets and the host's moves; then the obligations. -/

namespace Sys2Proof.Machine

-- ---------------------------------------------------------------- the updates that keep the core invariant

/-- ERR_INFO_W has room for a cell value plus an operand, and with it for all that `err_info` takes: an address sum, a
23-bit address, an opcode field, a count of bytes (10_state R33). -/
theorem fitsWidth_errInfoW {p : Params} {x : Int} (low : -2 ^ (p.dataW - 1) ≤ x)
    (high : x < 2 ^ (p.dataW - 1) + 2 ^ 23) : fitsWidth p.errInfoW x := by
  have hdata : (2 : Int) ^ (p.dataW - 1) ≤ 2 ^ max p.dataW 23 := pow_le_pow_right₀ (by decide) (by omega)
  have haddr : (2 : Int) ^ 23 ≤ 2 ^ max p.dataW 23 := pow_le_pow_right₀ (by decide) (by omega)
  have hwidth : p.errInfoW - 1 = max p.dataW 23 + 1 := rfl
  rw [fitsWidth, hwidth, pow_succ]
  omega

theorem fitsWidth_errInfoW_natCast (p : Params) {n : Nat} (h : n < 2 ^ 23) : fitsWidth p.errInfoW n := by
  have hpos : (0 : Int) < 2 ^ (p.dataW - 1) := by positivity
  exact fitsWidth_errInfoW (by omega) (by omega)

theorem State.Inv.setPc {s : State} (h : s.Inv) {pc : Nat} (hal : pc % 4 = 0) (hle : pc ≤ s.progLen) :
    (s.setPc pc).Inv :=
  { h with pc_aligned := hal, pc_le := hle }

theorem State.Inv.setStack {s : State} (h : s.Inv) {st : List Value} (hle : st.length ≤ s.params.stackDepth)
    (hfit : ∀ v ∈ st, fitsWidth s.params.dataW v) : (s.setStack st).Inv :=
  { h with sp_le := hle, stack_fits := hfit }

theorem State.Inv.push {s : State} (h : s.Inv) {v : Value} (room : s.sp ≠ s.params.stackDepth)
    (hv : fitsWidth s.params.dataW v) : (s.setStack (s.stack ++ [v])).Inv := by
  refine h.setStack ?_ fun u hu => ?_
  · rw [List.length_append, List.length_singleton]
    exact Nat.lt_of_le_of_ne h.sp_le room
  · rcases List.mem_append.1 hu with hu | hu
    · exact h.stack_fits u hu
    · rwa [List.mem_singleton.1 hu]

theorem State.Inv.pop {s : State} (h : s.Inv) {st : List Value} {v : Value} (top : s.stack = st ++ [v]) :
    (s.setStack st).Inv := by
  refine h.setStack ?_ fun u hu => h.stack_fits u (by simp [top, hu])
  have hsp := h.sp_le
  rw [sp_of_top top] at hsp
  omega

theorem State.Inv.top_fits {s : State} (h : s.Inv) {st : List Value} {v : Value} (top : s.stack = st ++ [v]) :
    fitsWidth s.params.dataW v :=
  h.stack_fits v (by simp [top])

theorem State.Inv.read_fits {s : State} (h : s.Inv) (a : Nat) : fitsWidth s.params.dataW (s.mem.read a) :=
  Memory.read_of_forall (fitsWidth_zero _) h.mem_fits a

theorem State.Inv.store {s : State} (h : s.Inv) {a : Nat} {v : Value} (range : a < s.memSize)
    (hv : fitsWidth s.params.dataW v) : (s.setMem (s.mem.write a v)).Inv :=
  { h with
    mem_wf := Memory.write_wf a v h.mem_wf
    mem_inRange := fun c hc => by
      rcases Memory.mem_write hc with rfl | hc
      · exact range
      · exact h.mem_inRange c hc
    mem_fits := fun c hc => by
      rcases Memory.mem_write hc with rfl | hc
      · exact hv
      · exact h.mem_fits c hc }

theorem State.Inv.raise {s : State} (h : s.Inv) {e : ErrCode} {pc : Nat} {info : Int} (word : InstrWord)
    (he : e ≠ .noError) (hpc : pc ≤ s.progLen) (hinfo : fitsWidth s.params.errInfoW info) :
    (raise e pc word info s).Inv :=
  { h with
    errInfo_fits := hinfo
    errPc_le := hpc
    err_clear := fun hr => absurd rfl hr
    err_set := fun _ => he }

/-- A raise inside an instruction records an offset at or below `pc`. -/
theorem State.Inv.raiseInCycle {s : State} (h : s.Inv) {e : ErrCode} {info : Int} (he : e ≠ .noError)
    (hinfo : fitsWidth s.params.errInfoW info) : (Machine.raise e s.fpc s.cycleWord info s).Inv :=
  h.raise _ he (Nat.le_trans (Nat.sub_le ..) h.pc_le) hinfo

theorem State.Inv.setRunState {s : State} (h : s.Inv) (hs : s.runState ≠ .haltedError) {r : RunState}
    (hr : r ≠ .haltedError) : (s.setRunState r).Inv :=
  { h with
    err_clear := fun _ => h.err_clear hs
    err_set := fun hr' => absurd hr' hr }

theorem State.Inv.appendTrace {s : State} (h : s.Inv) (r : TraceRec) : (s.appendTrace r).Inv := { h with }

-- ---------------------------------------------------------------- instructions and cycles

/-- Every instruction that fits its encoding keeps the core invariant. -/
theorem ExecCase.inv {s t : State} {i : Instr} (h : ExecCase s i t) (hi : i.wf = true) (hs : s.Inv) : t.Inv := by
  have hoperand := (Instr.wf_iff i).1 hi
  have hzero : fitsWidth s.params.errInfoW 0 := fitsWidth_zero _
  cases h with
  | loaded n room => exact hs.push room (fitsWidth_zextEntry _ n)
  | readPushed a range room => exact hs.push room (hs.read_fits a)
  | wrote a st v top range => exact (hs.pop top).store range (hs.top_fits top)
  | compared off st v top low range room => exact (hs.pop top).push room (fitsWidth_zextEntry _ _)
  | loadOverflow | readOverflow | writeUnderflow | compareUnderflow => exact hs.raiseInCycle ErrCode.noConfusion hzero
  | compareOverflow off st v top => exact (hs.pop top).raiseInCycle ErrCode.noConfusion hzero
  | readOutside a => exact hs.raiseInCycle ErrCode.noConfusion (fitsWidth_errInfoW_natCast _ hoperand)
  | writeOutside a st v top =>
    exact (hs.pop top).raiseInCycle ErrCode.noConfusion (fitsWidth_errInfoW_natCast _ hoperand)
  | compareOutside off st v top =>
    have hoff : off < 2 ^ 11 := hoperand
    obtain ⟨low, high⟩ := hs.top_fits top
    exact (hs.pop top).raiseInCycle ErrCode.noConfusion (fitsWidth_errInfoW (by simp; omega) (by simp; omega))

/-- The advance past a whole word keeps `pc` aligned and within the program (40_sequencer R104). -/
theorem State.Inv.advance {s : State} (h : s.Inv) (h4 : s.pc + 4 ≤ s.progLen) : (s.setPc (s.pc + 4)).Inv :=
  h.setPc (by have := h.pc_aligned; omega) h4

theorem CycleCase.inv {s t : State} (h : CycleCase s t) (hrun : s.runState = .running) (hs : s.Inv) : t.Inv := by
  cases h with
  | exhausted => exact hs.setRunState (by simp [hrun]) RunState.noConfusion
  | partialWord =>
    exact hs.raise 0 ErrCode.noConfusion hs.pc_le (fitsWidth_errInfoW_natCast _ (by omega))
  | invalid h4 op =>
    exact (hs.advance h4).raise _ ErrCode.noConfusion hs.pc_le (fitsWidth_errInfoW_natCast _ (by omega))
  | raised h4 i t hd he => exact he.inv (decodeWord_wf hd) (hs.advance h4)
  | completed h4 i t hd he => exact (he.inv (decodeWord_wf hd) (hs.advance h4)).appendTrace _

-- ---------------------------------------------------------------- resets and the host's moves

theorem State.resetWith_inv {p : Params} (hp : p.wf) {P : List Byte} (hP : P.length < 2 ^ p.pcW) (n : Nat) :
    (State.resetWith p P n).Inv where
  params_wf := hp
  progLen_lt := hP
  pc_aligned := rfl
  pc_le := Nat.zero_le _
  sp_le := Nat.zero_le _
  stack_fits := by simp
  mem_wf := rfl
  mem_inRange := by simp
  mem_fits := by simp
  errInfo_fits := fitsWidth_zero _
  errPc_le := Nat.zero_le _
  err_clear _ := ⟨rfl, rfl, rfl, rfl⟩
  err_set h := by simp at h

theorem State.resetWith_traceInv (p : Params) (P : List Byte) (n : Nat) : (State.resetWith p P n).TraceInv where
  bytes_eq := by simp
  within := Nat.zero_le _
  pc_eq _ := rfl
  exhausted h := by simp at h

theorem State.resetWith_smallValues (p : Params) (P : List Byte) (n : Nat) :
    (State.resetWith p P n).SmallValues where
  stack_small := by simp
  mem_small := by simp

/-- The start of a run keeps the trace's account, since the host starts in READY only (10_state R30). -/
theorem State.TraceInv.start {s : State} (h : s.TraceInv) (hs : s.runState = .ready) :
    (s.setRunState .running).TraceInv where
  bytes_eq := h.bytes_eq
  within := h.within
  pc_eq _ := h.pc_eq (by simp [hs])
  exhausted hr := by simp at hr

/-- The inversion form of an accepted reset (70 R190). -/
theorem hostReset_inv {P : List Byte} {n : Int} {s t : State} (h : hostReset P n s = .next t) :
    P.length < 2 ^ s.params.pcW ∧ t = State.resetWith s.params P n.toNat := by
  unfold hostReset at h
  split at h
  · cases h
  · split at h
    next hP =>
      cases h
      exact ⟨hP, rfl⟩
    · cases h

/-- The inversion form of an accepted memory preload (10_state R39). -/
theorem hostPreloadMem_inv {s t : State} {a : Int} {v : BitVec s.params.dataW} (h : hostPreloadMem s a v = .next t) :
    a.toNat < s.memSize ∧ t = s.setMem (s.mem.write a.toNat v.toInt) := by
  by_cases hs : s.runState = .ready
  · rw [hostPreloadMem_ready hs] at h
    split at h
    next ha =>
      cases h
      have hrange := (inRange_iff a s).1 ha
      exact ⟨by omega, rfl⟩
    · cases h
  · rw [hostPreloadMem_refused hs] at h
    cases h

/-- The inversion form of an accepted stack preload (10_state R39). -/
theorem hostPreloadPush_inv {s t : State} {v : BitVec s.params.dataW} (h : hostPreloadPush s v = .next t) :
    s.sp ≠ s.params.stackDepth ∧ t = s.setStack (s.stack ++ [v.toInt]) := by
  by_cases hs : s.runState = .ready
  · by_cases room : s.sp = s.params.stackDepth
    · rw [hostPreloadPush_full hs room] at h
      cases h
    · rw [hostPreloadPush_room hs room] at h
      cases h
      exact ⟨room, rfl⟩
  · rw [hostPreloadPush_refused hs] at h
    cases h

theorem hostStart_ready {s : State} (h : s.runState = .ready) : hostStart s = .next (s.setRunState .running) := by
  rw [hostStart, if_pos h]

/-- The inversion form of an accepted start (10_state R30). -/
theorem hostStart_inv {s t : State} (h : hostStart s = .next t) :
    s.runState = .ready ∧ t = s.setRunState .running := by
  by_cases hs : s.runState = .ready
  · rw [hostStart_ready hs] at h
    cases h
    exact ⟨hs, rfl⟩
  · rw [hostStart_refused hs] at h
    cases h

-- ---------------------------------------------------------------- the obligations, by tier

/-- Settles O37: outside RUNNING nothing changes, and every outcome of a cycle keeps the invariant (`CycleCase.inv`). -/
theorem stepKeepsInvariant : Obligations.StepKeepsInvariant := by
  unfold Obligations.StepKeepsInvariant
  intro s t hs h
  rcases step_inv h with ⟨-, rfl⟩ | ⟨hrun, hc⟩
  · exact hs
  · exact hc.inv hrun hs

/-- Settles O38: a step leaves the trace, or records the word that it passes (`step_keeps_traceInv`). -/
theorem stepKeepsTraceInvariant : Obligations.StepKeepsTraceInvariant := by
  unfold Obligations.StepKeepsTraceInvariant
  exact fun s t hs h => step_keeps_traceInv s t h hs

/-- Settles O3: an accepted reset answers `State.resetWith`, which is READY and meets the three invariants, and the
start changes its run state only. -/
theorem startedRunMeetsInvariants : Obligations.StartedRunMeetsInvariants := by
  unfold Obligations.StartedRunMeetsInvariants
  intro s t P n hp h
  obtain ⟨hP, rfl⟩ := hostReset_inv h
  have hinv := State.resetWith_inv hp hP n.toNat
  have htrace := State.resetWith_traceInv s.params P n.toNat
  have hsmall := State.resetWith_smallValues s.params P n.toNat
  exact ⟨hinv, htrace, hsmall, _, hostStart_ready rfl, rfl,
    hinv.setRunState RunState.noConfusion RunState.noConfusion, htrace.start rfl, hsmall.congr rfl rfl⟩

/-- Settles O6: each accepted move is an update that keeps the core invariant; the preloads name neither trace, program
nor `pc`. -/
theorem hostOperationsKeepInvariant : Obligations.HostOperationsKeepInvariant := by
  unfold Obligations.HostOperationsKeepInvariant
  intro s t a v hinv htrace h
  rcases h with h | h | h
  · obtain ⟨range, rfl⟩ := hostPreloadMem_inv h
    exact ⟨hinv.store range (fitsWidth_toInt v), { htrace with }⟩
  · obtain ⟨room, rfl⟩ := hostPreloadPush_inv h
    exact ⟨hinv.push room (fitsWidth_toInt v), { htrace with }⟩
  · obtain ⟨hs, rfl⟩ := hostStart_inv h
    exact ⟨hinv.setRunState (by simp [hs]) RunState.noConfusion, htrace.start hs⟩

/-- Settles O39: literals, cells, popped values and truth values are all in the range (`step_keeps_smallValues`). -/
theorem stepKeepsSmallValues : Obligations.StepKeepsSmallValues := by
  unfold Obligations.StepKeepsSmallValues
  exact fun s t hw hwf hs h => step_keeps_smallValues hw hwf hs h

/-- Settles O2: the model's reset state is a fresh state, of the default parameters and an empty program. -/
theorem resetStateMeetsInvariants : Obligations.ResetStateMeetsInvariants := by
  unfold Obligations.ResetStateMeetsInvariants
  exact ⟨State.resetWith_inv (by decide) (by decide) _, State.resetWith_traceInv .., State.resetWith_smallValues ..⟩

end Sys2Proof.Machine
end

section
/-! SUPPORT. What each instruction changes and leaves: the error registers and memory of an instruction that does not or
does raise, and executions over another lower stack; then the obligations. -/

namespace Sys2Proof.Machine

/-- The error registers are written by a raise only (10_state R32). -/
theorem ExecCase.errorRegs_eq {s t : State} {i : Instr} (h : ExecCase s i t) (ht : t.runState ≠ .haltedError) :
    t.errCode = s.errCode ∧ t.errPc = s.errPc ∧ t.errWord = s.errWord ∧ t.errInfo = s.errInfo := by
  cases h with
  | loaded | readPushed | wrote | compared => exact ⟨rfl, rfl, rfl, rfl⟩
  | loadOverflow | readOverflow | readOutside | writeUnderflow | writeOutside | compareOverflow | compareUnderflow
  | compareOutside => exact absurd rfl ht

/-- An instruction that ends a run ends it with an error. -/
theorem ExecCase.haltedError_of_halts {s t : State} {i : Instr} (h : ExecCase s i t) (hs : s.runState = .running)
    (ht : t.runState ≠ .running) : t.runState = .haltedError := by
  rcases h.kept_or_raised with ⟨hr, -⟩ | ⟨hr, -⟩
  · exact absurd (hr.trans hs) ht
  · exact hr

/-- An instruction that ends a run writes no cell (42_memory_access R136). -/
theorem ExecCase.mem_eq_of_halts {s t : State} {i : Instr} (h : ExecCase s i t) (hs : s.runState = .running)
    (ht : t.runState ≠ .running) : t.mem = s.mem := by
  rcases h.mem_cases with hm | ⟨a, v, -, hr, -⟩
  · exact hm
  · exact absurd (hr.trans hs) ht

/-- WRITE_TO_MEMORY pops whether or not its store is in range, and there is nothing to pop from an empty stack. -/
theorem ExecCase.write_stack_eq {s t : State} {a : Nat} (h : ExecCase s (.writeToMemory a) t) :
    t.stack = s.stack.dropLast := by
  cases h with
  | wrote _ st v top | writeOutside _ st v top => simp [top]
  | writeUnderflow _ empty => simp [empty]

/-- The conditions of an instruction name only the height of the stack and its top, and its effect leaves every entry
below the top: over other entries there, of the same number, each case holds again (10_state R25). -/
theorem ExecCase.rebase {s t : State} {i : Instr} {base base' : List Value} {v : Value}
    (h : ExecCase (s.setStack (base ++ [v])) i t) (hlen : base.length = base'.length) :
    ∃ top, t.stack = base ++ top ∧ ExecCase (s.setStack (base' ++ [v])) i (t.setStack (base' ++ top)) := by
  have hsp : (s.setStack (base' ++ [v])).sp = (s.setStack (base ++ [v])).sp := by simp [State.sp, hlen]
  cases h with
  | loaded n room =>
    refine ⟨[v] ++ [_], List.append_assoc .., ?_⟩
    rw [← List.append_assoc]
    exact .loaded n (by rwa [hsp])
  | loadOverflow n full => exact ⟨[v], rfl, .loadOverflow n (hsp.trans full)⟩
  | readPushed a range room =>
    refine ⟨[v] ++ [_], List.append_assoc .., ?_⟩
    rw [← List.append_assoc]
    exact .readPushed a range (by rwa [hsp])
  | readOverflow a range full => exact ⟨[v], rfl, .readOverflow a range (hsp.trans full)⟩
  | readOutside a range => exact ⟨[v], rfl, .readOutside a range⟩
  | wrote a st u top range =>
    obtain ⟨rfl, rfl⟩ : base = st ∧ v = u := by simpa using top
    exact ⟨[], by simp, by simpa using .wrote (s := s.setStack (base' ++ [v])) a base' v rfl range⟩
  | writeUnderflow a empty => simp at empty
  | writeOutside a st u top range =>
    obtain ⟨rfl, rfl⟩ : base = st ∧ v = u := by simpa using top
    exact ⟨[], by simp, by simpa using .writeOutside (s := s.setStack (base' ++ [v])) a base' v rfl range⟩
  | compared off st u top low range room =>
    obtain ⟨rfl, rfl⟩ : base = st ∧ v = u := by simpa using top
    exact ⟨_, rfl, .compared (s := s.setStack (base' ++ [v])) off base' v rfl low range (hlen ▸ room)⟩
  | compareOverflow off st u top low range full =>
    obtain ⟨rfl, rfl⟩ : base = st ∧ v = u := by simpa using top
    exact ⟨[], by simp,
      by simpa using .compareOverflow (s := s.setStack (base' ++ [v])) off base' v rfl low range (hlen ▸ full)⟩
  | compareUnderflow off empty => simp at empty
  | compareOutside off st u top range =>
    obtain ⟨rfl, rfl⟩ : base = st ∧ v = u := by simpa using top
    exact ⟨[], by simp, by simpa using .compareOutside (s := s.setStack (base' ++ [v])) off base' v rfl range⟩

-- ---------------------------------------------------------------- the obligations, by tier

/-- Settles O22: the frame is that of every instruction, none but WRITE_TO_MEMORY writes memory, and the cases of the
three show the stack. -/
theorem nonStoringInstructionsFrame : Obligations.NonStoringInstructionsFrame := by
  unfold Obligations.NonStoringInstructionsFrame
  intro i s t n hi hs h
  have hc := exec_inv h
  obtain ⟨hprog, hsize, hparams⟩ := hc.inputs_eq
  have hmem : t.mem = s.mem := by
    rcases hc.mem_cases with hm | ⟨a, v, rfl, -⟩
    · exact hm
    · simp at hi
  refine ⟨hparams, hsize, hprog, hc.pc_eq, hc.trace_eq, hmem, fun a => by rw [hmem], fun ht => ?_,
    fun ht => ⟨hc.haltedError_of_halts hs ht, ?_⟩⟩
  · obtain ⟨hcode, hpc, hword, hinfo⟩ := hc.errorRegs_eq (by simp [ht])
    refine ⟨hcode, hpc, hword, hinfo, ?_⟩
    cases hc with
    | loaded | readPushed => exact ⟨_, rfl⟩
    | compared _ st v top => exact ⟨_, by rw [top, List.dropLast_concat]; rfl⟩
    | wrote => simp at hi
    | loadOverflow | readOverflow | readOutside | writeUnderflow | writeOutside | compareOverflow | compareUnderflow
    | compareOutside => simp at ht
  · cases hc with
    | loaded | readPushed | compared => exact absurd hs ht
    | loadOverflow | readOverflow | readOutside | compareUnderflow => exact .inl rfl
    | compareOverflow _ st v top | compareOutside _ st v top => exact .inr (by simp [top])
    | wrote | writeUnderflow | writeOutside => simp at hi

/-- Settles O23: the frame is that of every instruction, and the one case that stores writes the popped value in the
cell of the operand (`Memory.read_write`). -/
theorem writeToMemoryFrame : Obligations.WriteToMemoryFrame := by
  unfold Obligations.WriteToMemoryFrame
  intro s t addr a hs hwf h ha
  obtain rfl : a = addr := Int.ofNat_inj.1 ha
  have hc := exec_inv h
  obtain ⟨hprog, hsize, hparams⟩ := hc.inputs_eq
  refine ⟨hparams, hsize, hprog, hc.pc_eq, hc.trace_eq, hc.write_stack_eq, fun x hx => ?_, fun ht => ?_,
    fun ht => ⟨hc.haltedError_of_halts hs ht, hc.mem_eq_of_halts hs ht⟩⟩
  · cases hc with
    | wrote _ st v => simp [Memory.read_write a v hwf, hx]
    | writeUnderflow | writeOutside => rfl
  · obtain ⟨hcode, hpc, hword, hinfo⟩ := hc.errorRegs_eq (by simp [ht])
    refine ⟨hcode, hpc, hword, hinfo, ?_⟩
    cases hc with
    | wrote _ st v top => simp [top, Memory.read_write a v hwf]
    | writeUnderflow | writeOutside => simp at ht

/-- Settles O25: the outcome over the one lower stack is a case of the instruction, and is one over the other
(`ExecCase.rebase`). -/
theorem lowerStackUnobserved : Obligations.LowerStackUnobserved := by
  unfold Obligations.LowerStackUnobserved
  intro i s base base' v hlen
  obtain ⟨t, ht, hc⟩ := exec_case i (s.setStack (base ++ [v]))
  obtain ⟨top, hstack, hc'⟩ := hc.rebase hlen
  exact ⟨t, top, by rw [← hstack]; exact ht, hc'.exec_eq⟩

/-- Settles O26: each raising case names its kind, and a stack within its depth excludes NOT_EQUAL's overflow
(`room_below_top`). -/
theorem errorKindsByInstruction : Obligations.ErrorKindsByInstruction := by
  unfold Obligations.ErrorKindsByInstruction
  refine ⟨⟨rfl, rfl, rfl, rfl, rfl, rfl⟩, fun i s t hs hdepth h ht => ?_⟩
  have hc := exec_inv h
  refine ⟨hc.haltedError_of_halts hs ht, ?_⟩
  cases hc with
  | loaded | readPushed | wrote | compared => exact absurd hs ht
  | compareOverflow _ st v top _ _ full => exact absurd full (room_below_top top hdepth)
  | loadOverflow | readOverflow | readOutside | writeUnderflow | writeOutside | compareUnderflow
  | compareOutside => simp

end Sys2Proof.Machine
end

section
/-! SUPPORT. Assembled programs: programs of whole valid words, what the assembler emits, and runs of such
programs; then what the host reads after a halt and the driver's call; then the obligations. -/

namespace Sys2Proof.Machine

-- ---------------------------------------------------------------- a program of whole valid words

/-- A program made of words of valid opcodes, so that no cycle that starts at a multiple of 4 meets another. -/
structure ValidWords (P : List Byte) : Prop where
  whole : P.length % 4 = 0
  valid : ∀ k, 4 * k + 4 ≤ P.length → ∃ i, decodeWord (fetch32 P (4 * k)) = .ok i

theorem fetch32_wordBytes_append (w : InstrWord) (rest : List Byte) : fetch32 (wordBytes w ++ rest) 0 = w :=
  (fetch32_eq rfl).trans (wordOfBytes_wordBytes w)

/-- Past the first word a fetch sees the words after it. -/
theorem fetch32_wordBytes_append_succ (w : InstrWord) (rest : List Byte) (k : Nat) :
    fetch32 (wordBytes w ++ rest) (4 * (k + 1)) = fetch32 rest (4 * k) := by
  have hdrop : (wordBytes w ++ rest).drop (4 * (k + 1)) = rest.drop (4 * k) := by
    rw [Nat.mul_succ, Nat.add_comm, ← List.drop_drop, List.drop_left' (length_wordBytes w)]
  rw [fetch32, progRead, hdrop]
  rfl

theorem ValidWords.cons {rest : List Byte} (h : ValidWords rest) {w : InstrWord} {i : Instr}
    (hd : decodeWord w = .ok i) : ValidWords (wordBytes w ++ rest) where
  whole := by
    rw [List.length_append, length_wordBytes, Nat.add_mod_left]
    exact h.whole
  valid k hk := by
    rw [List.length_append, length_wordBytes] at hk
    cases k with
    | zero => exact ⟨i, by rw [fetch32_wordBytes_append, hd]⟩
    | succ k =>
      rw [fetch32_wordBytes_append_succ]
      exact h.valid k (by omega)

theorem validWords_encode {is : List Instr} (h : ∀ i ∈ is, i.wf = true) :
    ValidWords (is.flatMap fun i => wordBytes (encode i)) := by
  induction is with
  | nil => exact ⟨rfl, fun k hk => by simp at hk⟩
  | cons i is ih =>
    obtain ⟨hi, his⟩ := List.forall_mem_cons.1 h
    exact (ih his).cons (decodeWord_encode hi)

-- ---------------------------------------------------------------- what the assembler emits (30_encoding R80, R90)

/-- The assembler's record of an instruction: its mnemonic, its fields, and the bytes of its canonical word. -/
def asmRecord (i : Instr) : AsmRec :=
  { mnemonic := mnemonicText i.opcode, opcode := i.opcode.bits, operand := i.operand, bytes := wordBytes (encode i) }

theorem encodeRecord_inv {op : Opcode} {n : Nat} {r : AsmRec} (h : encodeRecord op n = .ok r) :
    ∃ i, i.wf = true ∧ r = asmRecord i := by
  by_cases hn : n < 2 ^ op.width
  · rw [encodeRecord_fits hn] at h
    cases h
    exact ⟨op.instr n, by simpa [Instr.wf_iff] using hn, by simp [asmRecord]⟩
  · rw [encodeRecord_above (Nat.le_of_not_lt hn)] at h
    cases h

theorem assembleFields_inv {m t : List Char} {r : AsmRec} (h : assembleFields m t = .ok r) :
    ∃ i, i.wf = true ∧ r = asmRecord i := by
  unfold assembleFields at h
  split at h
  · cases h
  · split at h
    · cases h
    · exact encodeRecord_inv h

/-- A line that gives a word gives the record of a well-formed instruction. -/
theorem assembleLine_inv {line : List Char} {r : AsmRec} (h : assembleLine line = .ok (some r)) :
    ∃ i, i.wf = true ∧ r = asmRecord i := by
  unfold assembleLine at h
  split at h
  · cases h
  · split at h
    next hf =>
      cases h
      exact assembleFields_inv hf
    · cases h
  · cases h

/-- The records of any lines are those of well-formed instructions, and their bytes in order are the output. -/
theorem assembleFrom_canonical (lines : List (List Char)) (n : Nat) :
    ∃ is : List Instr, (∀ i ∈ is, i.wf = true) ∧ (assembleFrom n lines).trace = is.map asmRecord ∧
      (assembleFrom n lines).bytes = is.flatMap fun i => wordBytes (encode i) := by
  induction lines generalizing n with
  | nil => exact ⟨[], by simp, rfl, rfl⟩
  | cons line rest ih =>
    cases hl : assembleLine line with
    | error e =>
      rw [assembleFrom_cons_error hl]
      exact ⟨[], by simp, rfl, rfl⟩
    | ok o =>
      obtain ⟨is, hwf, htrace, hbytes⟩ := ih (n + 1)
      cases o with
      | none =>
        rw [assembleFrom_cons_blank hl]
        exact ⟨is, hwf, htrace, hbytes⟩
      | some r =>
        obtain ⟨i, hi, rfl⟩ := assembleLine_inv hl
        rw [assembleFrom_cons_word hl]
        exact ⟨i :: is, List.forall_mem_cons.2 ⟨hi, hwf⟩, congrArg (asmRecord i :: ·) htrace,
          congrArg (wordBytes (encode i) ++ ·) hbytes⟩

theorem assembledProgram_validWords (lines : List (List Char)) : ValidWords (assembledProgram lines) := by
  obtain ⟨is, hwf, -, hbytes⟩ := assembleFrom_canonical lines 1
  rw [assembledProgram, assemble, hbytes]
  exact validWords_encode hwf

-- ---------------------------------------------------------------- runs of a program of whole valid words

/-- The two kinds that the sequencer raises, and no instruction (60_exceptions R160). -/
def ErrCode.ofSequencer (e : ErrCode) : Prop := e = .invalidBytecode ∨ e = .malformedProgram

/-- No instruction records a kind that the sequencer raises. -/
theorem ExecCase.not_ofSequencer {s t : State} {i : Instr} (h : ExecCase s i t) (hs : ¬ s.errCode.ofSequencer) :
    ¬ t.errCode.ofSequencer := by
  cases h with
  | loaded | readPushed | wrote | compared => exact hs
  | loadOverflow | readOverflow | readOutside | writeUnderflow | writeOutside | compareOverflow | compareUnderflow
  | compareOutside => simp [ErrCode.ofSequencer]

/-- In a program of whole valid words, between two of them, with none of the sequencer's errors recorded. -/
structure State.OnValidWords (s : State) : Prop where
  words : ValidWords s.program
  pc_aligned : s.pc % 4 = 0
  noFault : ¬ s.errCode.ofSequencer

theorem State.OnValidWords.executed {s t : State} {i : Instr} (h : s.OnValidWords)
    (he : ExecCase (s.setPc (s.pc + 4)) i t) : t.OnValidWords where
  words := by
    rw [he.program_eq]
    exact h.words
  pc_aligned := by
    rw [he.pc_eq, State.setPc_pc, Nat.add_mod_right]
    exact h.pc_aligned
  noFault := he.not_ofSequencer h.noFault

theorem CycleCase.onValidWords {s t : State} (h : CycleCase s t) (hs : s.OnValidWords) : t.OnValidWords := by
  have hal := hs.pc_aligned
  cases h with
  | exhausted => exact { hs with }
  | partialWord hlt h4 =>
    have hwhole : s.progLen % 4 = 0 := hs.words.whole
    omega
  | invalid h4 op hd =>
    obtain ⟨k, hk⟩ : ∃ k, s.pc = 4 * k := ⟨s.pc / 4, by omega⟩
    rw [hk] at hd h4
    obtain ⟨i, hi⟩ := hs.words.valid k h4
    rw [hi] at hd
    cases hd
  | raised h4 i t hd he => exact hs.executed he
  | completed h4 i t hd he => exact { hs.executed he with }

theorem step_keeps_onValidWords (s t : State) (h : step s = .next t) (hs : s.OnValidWords) : t.OnValidWords := by
  rcases step_inv h with ⟨-, rfl⟩ | ⟨-, hc⟩
  · exact hs
  · exact hc.onValidWords hs

theorem State.preloaded_onValidWords {P : List Byte} (hP : ValidWords P) (p : Params) (n : Nat) (m : Memory)
    (st : List Value) : (State.preloaded p P n m st).OnValidWords where
  words := hP
  pc_aligned := rfl
  noFault := by simp [ErrCode.ofSequencer, State.preloaded]

-- ---------------------------------------------------------------- the host after a halt, and the driver's call

theorem runResult_of_halted {s : State} (h : s.runState.halted = true) : ∃ r, runResult s = some r := by
  unfold runResult
  cases hr : s.runState with
  | haltedSuccess | haltedError => exact ⟨_, rfl⟩
  | ready | running => simp [hr, RunState.halted] at h

/-- The driver's call on an accepted program is the run of the started state (70 R193). -/
theorem interpret_eq {s : State} {P : List Byte} (hP : P.length < 2 ^ s.params.pcW) (n : Nat) :
    interpret P n s = runCycles (P.length / 4 + 1) (State.started s.params P n) := by
  rw [interpret, hostReset_accepted hP, Result.andThen, hostStart_ready rfl, Result.andThen, State.started]

theorem RunState.halted_iff (r : RunState) : r.halted = true ↔ r = .haltedSuccess ∨ r = .haltedError := by
  cases r <;> decide

/-- The reads of a cell after the halt: those in range only (log 20). -/
theorem hostReadMem_halted {s : State} (h : s.runState = .haltedSuccess ∨ s.runState = .haltedError) (a : Int) :
    hostReadMem s a = if inRange a s then .ok (s.mem.read a.toNat) else .error .cellOutOfRange := by
  rw [hostReadMem, if_pos ((RunState.halted_iff _).2 h)]

-- ---------------------------------------------------------------- the obligations, by tier

/-- Settles O8: the call is the run of the started state, which halts (`preloaded_halts` with nothing preloaded). -/
theorem interpretAlwaysHasResult : Obligations.InterpretAlwaysHasResult := by
  unfold Obligations.InterpretAlwaysHasResult
  intro s P n hP
  obtain ⟨t, ht, hhalt⟩ := preloaded_halts s.params P n [] []
  obtain ⟨r, hr⟩ := runResult_of_halted hhalt
  exact ⟨t, r, (interpret_eq hP n).trans ht, hhalt, hr, ht⟩

/-- Settles O31: the decoder on a word's bytes is the decoder on the word (`decodeBytes_wordBytes`), and the canonical
word decodes to its instruction. -/
theorem encodedBytesDecode : Obligations.EncodedBytesDecode := by
  unfold Obligations.EncodedBytesDecode
  intro i rest hi
  have hbytes (rest : List Byte) : decodeBytes (wordBytes (encode i) ++ rest) = .ok (i, rest) := by
    rw [decodeBytes_wordBytes, decodeWord_encode hi]
  refine ⟨hbytes rest, fetch32_wordBytes_append _ rest, ?_⟩
  rw [decodeTableWord, tableBytes_toNat, ← List.append_nil (wordBytes _), hbytes]

/-- Settles O51, by induction on the lines (`assembleFrom_canonical`). -/
theorem assemblerEmitsCanonicalWords : Obligations.AssemblerEmitsCanonicalWords := by
  unfold Obligations.AssemblerEmitsCanonicalWords
  intro lines
  obtain ⟨is, hwf, htrace, hbytes⟩ := assembleFrom_canonical lines 1
  refine ⟨is, hwf, hbytes, ?_, ?_⟩
  · rw [assembledProgram, assemble, htrace, hbytes, List.flatMap_map]
    rfl
  · rw [assemble, htrace, List.map_map]
    rfl

/-- Settles O52: an assembled program is one of whole valid words, and no step of a run on it leaves `OnValidWords`. -/
theorem assembledProgramNeverMalformed : Obligations.AssembledProgramNeverMalformed := by
  unfold Obligations.AssembledProgramNeverMalformed
  intro lines p n k m st t h
  have hstart := State.preloaded_onValidWords (assembledProgram_validWords lines) p n m st
  exact not_or.1 (runCycles_keeps step_keeps_onValidWords h hstart).noFault

/-- Settles O4: of the state before it a reset reads the parameters only. -/
theorem resetForgetsEarlierRun : Obligations.ResetForgetsEarlierRun := by
  unfold Obligations.ResetForgetsEarlierRun
  intro s s' P n h
  rw [hostReset, hostReset, h]

/-- Settles O7: the branches of `runResult` and `hostReadMem`; the final memory lists each cell's read. -/
theorem hostReadsResultAfterHalt : Obligations.HostReadsResultAfterHalt := by
  unfold Obligations.HostReadsResultAfterHalt
  intro s a
  refine ⟨fun h => ⟨s.mem.firstCells s.memSize, by rw [runResult, h], Memory.length_firstCells .., fun x hx => ?_⟩,
    fun h => by rw [runResult, h], fun h ha => ?_, fun h ha => ?_, fun h b hb => ?_, fun h => ?_⟩
  · simp [Memory.firstCells, hx]
  · rw [hostReadMem_halted h, if_pos ((inRange_iff ..).2 ⟨by omega, by omega⟩), Int.toNat_natCast]
  · rw [hostReadMem_halted h, if_neg (by rw [inRange_iff]; omega)]
  · rw [hostReadMem_halted h, if_neg (by rw [inRange_iff]; omega)]
  · rcases h with h | h <;> exact ⟨by rw [runResult, h], by rw [hostReadMem, h]; rfl⟩

end Sys2Proof.Machine
end
